-- ==== Sys2Proof/Word.lean ====
section
/-!
DEFINITION. The words the BitReader core's ports carry: 8-bit payload bytes, 64-bit command and response words, and
the 32-bit ARG and VALUE fields (spec/30_encoding.md R50, R51, R54).
-/

namespace Sys2Proof

/-- One payload byte, "unsigned 8-bit" (R10, R21). -/
abbrev Byte := BitVec 8

/-- One command word of the CMD port (R51). -/
abbrev CmdWord := BitVec 64

/-- One response word of the RSP port (R54). -/
abbrev RspWord := BitVec 64

end Sys2Proof
end

