-- ==== Sys2Proof/Syntax.lean ====
section
/-!
DEFINITION. The three commands of the BitReader core (spec/opcode_table.json, spec/30_encoding.md R52), each with its
operand as the number R53 makes of ARG.
-/

namespace Sys2Proof

/-- One constructor per row of the opcode table. -/
inductive Instr where
  /-- NEW: construct a reader over `count` payload bytes (R70). -/
  | new (count : Nat)
  /-- READ: extract one code of `width` bits; the width is signed (R53, R75). -/
  | read (width : Int)
  /-- BITAT: probe the bit at `index` (R88). -/
  | bitat (index : Nat)
  deriving DecidableEq, Repr

end Sys2Proof
end

