-- ==== Sys2Proof/WellFormed.lean ====
section
/-!
DEFINITION. Which commands have an encoding: the operand is one that a 32-bit ARG can hold (spec/30_encoding.md R53).
-/

namespace Sys2Proof

/-- R53: NEW's count and BITAT's index are 0..2^32-1, READ's width is -2^31..2^31-1. -/
def Instr.wellFormed : Instr → Bool
  | .new count => decide (count < 2 ^ 32)
  | .read width => decide (-(2 ^ 31) ≤ width) && decide (width < 2 ^ 31)
  | .bitat index => decide (index < 2 ^ 32)

end Sys2Proof
end

