-- ==== Sys2Proof/Decode.lean ====
section
/-!
DEFINITION. Decoding a command word (spec/30_encoding.md R51, R52, R53, R58, R61), total on every word and rejecting by
name, and the encoder beside it.
-/

namespace Sys2Proof

/-- Why a word is illegal (R58). The check of RSV comes first. -/
inductive IllegalWord where
  /-- RSV (bits 59:32) is not zero. -/
  | reservedBits
  /-- OP is 0x0 or 0x4..0xF. -/
  | reservedOp
  deriving DecidableEq, Repr

/-- What a word decodes to: "exactly one of NEW(N), READ(width), BITAT(index) or illegal" (R61). -/
inductive Decoded where
  | command (i : Instr)
  | illegal (why : IllegalWord)
  deriving DecidableEq, Repr

/-- OP, bits 63:60 (R51). -/
def opField (w : CmdWord) : BitVec 4 := w.extractLsb' 60 4

/-- RSV, bits 59:32 (R51). -/
def rsvField (w : CmdWord) : BitVec 28 := w.extractLsb' 32 28

/-- ARG, bits 31:0 (R51). -/
def argField (w : CmdWord) : BitVec 32 := w.extractLsb' 0 32

/-- The opcode numbers of R52. -/
def opNew : BitVec 4 := 0x1#4
def opRead : BitVec 4 := 0x2#4
def opBitat : BitVec 4 := 0x3#4

/-- The decoder of R61, with the operands assembled as R53 says: zero-extended, or sign-extended for READ. -/
def decode (w : CmdWord) : Decoded :=
  if rsvField w ≠ 0#28 then .illegal .reservedBits
  else if opField w = opNew then .command (.new (argField w).toNat)
  else if opField w = opRead then .command (.read (argField w).toInt)
  else if opField w = opBitat then .command (.bitat (argField w).toNat)
  else .illegal .reservedOp

/-- A command word from its two live fields, RSV zero (R51). -/
def packCommand (op : BitVec 4) (arg : BitVec 32) : CmdWord := op ++ 0#28 ++ arg

/-- The word of a command (R51, R52, R53). -/
def encode : Instr → CmdWord
  | .new count => packCommand opNew (BitVec.ofNat 32 count)
  | .read width => packCommand opRead (BitVec.ofInt 32 width)
  | .bitat index => packCommand opBitat (BitVec.ofNat 32 index)

/-- The command word that the `nbits` low bits of `w` make, the bits above them zero. Every command word is exactly 64
bits (R59), so a number that does not fit 64 bits is no command word. -/
def tableWord (nbits w : Nat) : Option CmdWord :=
  if w % 2 ^ nbits < 2 ^ 64 then some (BitVec.ofNat 64 (w % 2 ^ nbits)) else none

/-- What the decoder reads from a word numbered as spec/opcode_table.json numbers it. -/
def decodeTableWord (nbits w : Nat) : Option Instr :=
  match tableWord nbits w with
  | none => none
  | some word =>
    match decode word with
    | .command i => some i
    | .illegal _ => none

end Sys2Proof
end

