-- ==== Sys2Proof/Config.lean ====
section
/-!
DEFINITION. The two parameters the spec leaves to an implementation (spec/00_scope.md R8, R9). They are data of the
machine's state that no step writes, so that every claim ranges over all their values (92 D6: "the model takes MAX_WIDTH
as an argument"; D7: "claims take MAX_BYTES as a premise").
-/

namespace Sys2Proof

/-- MAX_WIDTH and MAX_BYTES. -/
structure Config where
  maxWidth : Nat
  maxBytes : Nat
  deriving DecidableEq, Repr

/-- The values R8 and R9 allow: 1 <= MAX_WIDTH <= 32 and MAX_BYTES <= 2^29. -/
abbrev Config.Legal (c : Config) : Prop :=
  1 ≤ c.maxWidth ∧ c.maxWidth ≤ 32 ∧ c.maxBytes ≤ 2 ^ 29

/-- R8's default MAX_WIDTH = 32, and the MAX_BYTES = 2^29 that R9 lets "a model that ignores capacity" take.
DESIGN CHOICE for MAX_BYTES (notes/assumptions/1.md), unsafe for a claim that rests on the number. -/
def Config.default : Config := { maxWidth := 32, maxBytes := 2 ^ 29 }

end Sys2Proof
end

