-- ==== Sys2Proof/Machine/State.lean ====
section
/-!
DEFINITION. The state of one BitReader instance with the host's side of its three ports, as plain data
(spec/10_state.md R20, R32, R34; spec/30_encoding.md R50, R60, R65; spec/70_reset_and_hazards.md R105), the reasons a
step can stop, and the state right after reset.
-/

namespace Sys2Proof.Machine

/-- The byte buffer (R20, R35): (logical address, byte) pairs, addresses strictly rising. An address that is not
listed has no value: it does not exist (R35; notes/assumptions/12.md). -/
abbrev Memory := List Host.Cell

/-- A NEW that is collecting its payload (R32, R60): its byte count, and the bytes taken from DIN so far, oldest
first. -/
structure Payload where
  count : Nat
  taken : List Byte
  deriving DecidableEq, Repr

/-- Everything the spec gives the machine, and the host's side of its ports. -/
structure State where
  /-- MAX_WIDTH and MAX_BYTES (R8, R9); no step writes them. -/
  cfg : Config
  /-- The buffer in logical byte order (R20, R21). -/
  buffer : Memory
  /-- N, the byte count (R20, R22). -/
  n : Nat
  /-- The signed bit cursor (R20, R23). -/
  cursor : Int
  /-- The NEW in progress, if any (R32, R34, R60). -/
  newInProgress : Option Payload
  /-- The response word held on RSP until the host takes it (R34, R50, R65). -/
  rsp : Option RspWord
  /-- Words the host offers on CMD, not yet accepted, next first (R50; notes/assumptions/2.md). -/
  cmd : List CmdWord
  /-- Bytes the host offers on DIN, not yet taken, next first (R50, R60; notes/assumptions/2.md). -/
  din : List Byte
  /-- Whether the host takes a response that RSP holds (R50, R65; notes/assumptions/4.md). -/
  rspReady : Bool
  /-- The responses the host has taken, oldest first (R57; the model's own record, notes/assumptions/4.md). -/
  received : List RspWord
  /-- The level of the reset input (R105; notes/assumptions/5.md). -/
  resetAsserted : Bool
  deriving DecidableEq, Repr

/-- Why the machine stops. A stop is never cleared: no step follows it. -/
inductive Fault where
  /-- The internal bitAt was given an index that names no bit of the buffer (R97 form 1, R87). Raised by READ and BITAT
  only in states that break the invariant (R84). Safe: a run that reaches it has no next state. -/
  | indexOutOfRange
  deriving DecidableEq, Repr

/-- Why a command has no meaning. -/
inductive Refusal where
  /-- The command of this mnemonic is not modelled. No arm of `exec` raises it: every command has its meaning. Safe. -/
  | notModelled (mnemonic : String)
  deriving DecidableEq, Repr

/-- The state right after reset (R34, R105). `cfg` is R8's default with notes/assumptions/1.md's capacity; the host's
side of the ports is notes/assumptions/2.md, 4.md and 5.md: DESIGN CHOICE, nothing offered, reset released. -/
def State.reset : State where
  cfg := Config.default
  buffer := []
  n := 0
  cursor := -1
  newInProgress := none
  rsp := none
  cmd := []
  din := []
  rspReady := true
  received := []
  resetAsserted := false

end Sys2Proof.Machine
end

