-- ==== Sys2Proof/Machine/Flags.lean ====
section
/-!
DEFINITION. The block has no flag register (spec/10_state.md R30). What stands in a flag's place: the status codes and
the response word (spec/30_encoding.md R54, R55, R56), and the predicates the spec derives from the cursor and never
stores (spec/10_state.md R17, R29).
-/

namespace Sys2Proof.Machine

/-- The statuses of R55. -/
inductive Status where
  | ok
  | exhausted
  | invalidWidth
  | indexOutOfRange
  | illegalCommand
  | capacityExceeded
  deriving DecidableEq, Repr

/-- The STATUS codes of R55. -/
def Status.code : Status → BitVec 4
  | .ok => 0x0#4
  | .exhausted => 0x1#4
  | .invalidWidth => 0x2#4
  | .indexOutOfRange => 0x3#4
  | .illegalCommand => 0x4#4
  | .capacityExceeded => 0x5#4

/-- The response word of R54: STATUS[63:60], zero, VALUE[31:0]. -/
def responseWord (status : Status) (value : BitVec 32) : RspWord := status.code ++ 0#28 ++ value

/-- The STATUS field of a response word (R54). -/
def statusField (r : RspWord) : BitVec 4 := r.extractLsb' 60 4

/-- The middle field of a response word, "always 0" (R54). -/
def zeroField (r : RspWord) : BitVec 28 := r.extractLsb' 32 28

/-- The VALUE field of a response word (R54). -/
def valueField (r : RspWord) : BitVec 32 := r.extractLsb' 0 32

/-- remaining(s) = cursor + 1, the count of unread bits (R17, R29). -/
def State.remaining (s : State) : Int := s.cursor + 1

/-- consumed(s) = N*8 - 1 - cursor, the count of bits already read (R17). -/
def State.consumed (s : State) : Int := (s.n : Int) * 8 - 1 - s.cursor

/-- Active(s): cursor >= 0 (R29). -/
def State.active (s : State) : Bool := decide (0 ≤ s.cursor)

/-- Drained(s): cursor = -1 (R29). -/
def State.drained (s : State) : Bool := decide (s.cursor = -1)

/-- WouldExhaust(s, w): w >= 1 and cursor - w + 1 < 0 (R29). -/
def State.wouldExhaust (s : State) (w : Int) : Bool := decide (1 ≤ w) && decide (s.cursor - w + 1 < 0)

end Sys2Proof.Machine
end

