-- ==== Sys2Proof/Machine/Operands.lean ====
section
/-!
DEFINITION. Where the commands' operands come from: the buffer's bytes (spec/20_memory.md R35), the bit-index mapping
and bitAt (spec/10_state.md R24, spec/42_bitat.md R87), and the assembly of a code (spec/41_read.md R75, R79). ARG itself
is made a number by the decoder (spec/30_encoding.md R53).
-/

namespace Sys2Proof.Machine

/-- MemRead(a, 1) (R13): the byte at logical address `a`, no value where the buffer has none (R35). -/
def Memory.read : Memory → Nat → Option Byte
  | [], _ => none
  | (k, b) :: rest, a => if k = a then some b else Memory.read rest a

/-- The canonical form: addresses strictly rising, so each is listed once. No entry can equal what an unlisted address
reads as, since that is no value. -/
def Memory.wf : Memory → Bool
  | [] => true
  | [_] => true
  | (k, _) :: (l, c) :: rest => decide (k < l) && Memory.wf ((l, c) :: rest)

/-- byteOf(i) = i div 8 (R24). -/
def byteOf (i : Nat) : Nat := i / 8

/-- bitPosOf(i) = 7 - (i mod 8) (R24). -/
def bitPosOf (i : Nat) : Nat := 7 - i % 8

/-- bitAt(i) (R87): bit bitPosOf(i) of logical byte byteOf(i). "For an index outside 0..N*8-1, bitAt has no value". -/
def bitAt (s : State) (i : Int) : Option (BitVec 1) :=
  if 0 ≤ i ∧ i < (s.n : Int) * 8 then
    (s.buffer.read (byteOf i.toNat)).map fun b => b.extractLsb' (bitPosOf i.toNat) 1
  else none

/-- R75's loop: `width` bits from index `i` upward, each shifted in below the earlier ones. No value as soon as bitAt
has none (R97 form 1). -/
def assembleFrom (s : State) : (i : Int) → (width : Nat) → (code : Nat) → Option Nat
  | _, 0, code => some code
  | i, width + 1, code =>
    match bitAt s i with
    | none => none
    | some bit => assembleFrom s (i + 1) width (code <<< 1 ||| bit.toNat)

/-- The code at indices firstBit..cursor (R75, R79). -/
def assembleCode (s : State) (width : Nat) : Option Nat :=
  assembleFrom s (s.cursor - width + 1) width 0

end Sys2Proof.Machine
end

