-- ==== Sys2Proof/Machine/Ops.lean ====
section
/-!
DEFINITION. The named operations every command is made of: sending a response and ending with an error status
(spec/00_scope.md R13, spec/60_exceptions.md R92, R94), writing the whole buffer (spec/20_memory.md R35, R37), collecting
NEW's payload (spec/30_encoding.md R60), and the reset sequence (spec/70_reset_and_hazards.md R105). The block takes no
traps: an error is a response, with no handler, saved state or return (R92, R101).
-/

namespace Sys2Proof.Machine

/-- respond(STATUS, VALUE) (R13): the command ends with its one response word on RSP (R57). -/
def respond (status : Status) (value : BitVec 32) (s : State) : State :=
  { s with rsp := some (responseWord status value) }

/-- raise Status (R13, R94): VALUE is 0 and nothing else of the state changes. -/
def raise (status : Status) (s : State) : State := respond status 0#32 s

/-- The cells of `bytes` at rising addresses from `a`. -/
def Memory.ofBytesFrom : Nat → List Byte → Memory
  | _, [] => []
  | a, b :: rest => (a, b) :: Memory.ofBytesFrom (a + 1) rest

/-- The whole buffer with logical byte j the j-th of `bytes`. No command writes less than the whole buffer (R35). -/
def Memory.ofBytes (bytes : List Byte) : Memory := Memory.ofBytesFrom 0 bytes

/-- R70's effect once the payload is there: buffer[j] = contents[N-1-j], length N, cursor N*8 - 1, all at once (R43,
R73). The NEW is no longer in progress. -/
def construct (contents : List Byte) (s : State) : State :=
  { s with
    buffer := Memory.ofBytes contents.reverse
    n := contents.length
    cursor := (contents.length : Int) * 8 - 1
    newInProgress := none }

/-- R60: take from DIN, in order, the bytes the NEW still lacks, as far as DIN offers them. With all N taken it
constructs and responds; with fewer the NEW stays in progress and no response comes (R65, R110). -/
def collectPayload (job : Payload) (s : State) : State :=
  let lacking := job.count - job.taken.length
  let taken := job.taken ++ s.din.take lacking
  let s := { s with din := s.din.drop lacking }
  if taken.length = job.count then respond .ok 0#32 (construct taken s)
  else { s with newInProgress := some { count := job.count, taken := taken } }

/-- R105: abandon the command in progress, discard a response not taken, and set N, buffer and cursor to their reset
values. What the host offers on CMD and DIN stays offered (DEDUCED, notes/assumptions/5.md). -/
def resetSequence (s : State) : State :=
  { s with buffer := [], n := 0, cursor := -1, newInProgress := none, rsp := none }

end Sys2Proof.Machine
end

