-- ==== Sys2Proof/Machine/Construction.lean ====
section
/-!
DEFINITION. The meaning of NEW (spec/40_construction.md R70 to R74).
-/

namespace Sys2Proof.Machine

/-- NEW (R70): CAPACITY_EXCEEDED when N > MAX_BYTES, taking no byte (R72); otherwise the payload is collected (R60). -/
def execNew (count : Nat) (s : State) : Host.Outcome State Fault Refusal :=
  if s.cfg.maxBytes < count then .next (raise .capacityExceeded s)
  else .next (collectPayload { count := count, taken := [] } s)

end Sys2Proof.Machine
end

