-- ==== Sys2Proof/Machine/Extraction.lean ====
section
/-!
DEFINITION. The meanings of READ (spec/41_read.md R75 to R86) and BITAT (spec/42_bitat.md R87 to R91).
-/

namespace Sys2Proof.Machine

/-- READ (R75), its checks in R100's order: INVALID_WIDTH (R76), the width-0 success (R77), EXHAUSTED (R78), then the
code (R79) and the cursor (R80). An index that names no bit is the internal fault (R97 form 1). -/
def execRead (width : Int) (s : State) : Host.Outcome State Fault Refusal :=
  if width < 0 ∨ (s.cfg.maxWidth : Int) < width then .next (raise .invalidWidth s)
  else if width = 0 then .next (respond .ok 0#32 s)
  else if s.cursor - width + 1 < 0 then .next (raise .exhausted s)
  else
    match assembleCode s width.toNat with
    | none => .fault .indexOutOfRange
    | some code => .next (respond .ok (BitVec.ofNat 32 code) { s with cursor := s.cursor - width })

/-- BITAT (R88): INDEX_OUT_OF_RANGE when index >= N*8 (R89), else the bit, zero-extended. It never writes (R90). -/
def execBitat (index : Nat) (s : State) : Host.Outcome State Fault Refusal :=
  if s.n * 8 ≤ index then .next (raise .indexOutOfRange s)
  else
    match bitAt s index with
    | none => .fault .indexOutOfRange
    | some bit => .next (respond .ok (bit.setWidth 32) s)

end Sys2Proof.Machine
end

