-- ==== Sys2Proof/Machine/Dispatch.lean ====
section
/-!
DEFINITION. One command's effect: one arm per constructor (spec/30_encoding.md R52).
-/

namespace Sys2Proof.Machine

def exec (i : Instr) (s : State) : Host.Outcome State Fault Refusal :=
  match i with
  | .new count => Sys2Proof.Machine.execNew count s
  | .read width => Sys2Proof.Machine.execRead width s
  | .bitat index => Sys2Proof.Machine.execBitat index s

end Sys2Proof.Machine
end

