-- ==== Sys2Proof/Machine/Ports.lean ====
section
/-!
DEFINITION. The three ports (spec/30_encoding.md R50): which action the block takes next, the transfer of a response, and
the acceptance of a command word.
-/

namespace Sys2Proof.Machine

/-- What the block does next. -/
inductive Phase where
  /-- The reset input is asserted (R105). -/
  | inReset
  /-- A response is held on RSP (R65). -/
  | responding (r : RspWord)
  /-- A NEW is collecting its payload; no command is accepted meanwhile (R32, R60). -/
  | collecting (job : Payload)
  /-- A command word is accepted from CMD (R50). -/
  | accepting (w : CmdWord) (rest : List CmdWord)
  /-- The host offers no command. -/
  | idle
  deriving DecidableEq, Repr

/-- One command at a time (R46, R50). A response still held keeps the next command out: RSP holds one word (R50, R65)
and the block has no queue (R32) (DEDUCED, notes/assumptions/3.md). -/
def phase (s : State) : Phase :=
  if s.resetAsserted then .inReset
  else
    match s.rsp, s.newInProgress, s.cmd with
    | some r, _, _ => .responding r
    | none, some job, _ => .collecting job
    | none, none, w :: rest => .accepting w rest
    | none, none, [] => .idle

/-- The transfer of a held response: it moves to the host when the host is ready; until then the block "holds the
response" (R65). -/
def handOver (r : RspWord) (s : State) : State :=
  if s.rspReady then { s with rsp := none, received := s.received ++ [r] } else s

/-- The state once CMD's head has been accepted. -/
def acceptCommand (rest : List CmdWord) (s : State) : State := { s with cmd := rest }

/-- Put a word at the head of CMD with the block free to accept it: the reset input released, a held response taken by
the host, a NEW in progress abandoned (notes/assumptions/9.md). -/
def offerNext (w : CmdWord) (s : State) : State :=
  { s with
    cmd := w :: s.cmd
    resetAsserted := false
    newInProgress := none
    rsp := none
    received := s.received ++ s.rsp.toList }

end Sys2Proof.Machine
end

