-- ==== Sys2Proof/Machine/Step.lean ====
section
/-!
DEFINITION. One atomic action of the block (spec/20_memory.md R46; spec/30_encoding.md R50, R57, R58, R60;
spec/70_reset_and_hazards.md R105).
-/

namespace Sys2Proof.Machine

/-- The block's next action. An illegal word is answered ILLEGAL_COMMAND and changes nothing else (R58, R98). A block
with nothing to do waits: its step gives the same state (notes/assumptions/7.md, 8.md). -/
def step (s : State) : Host.Outcome State Fault Refusal :=
  match phase s with
  | .inReset => .next (resetSequence s)
  | .responding r => .next (handOver r s)
  | .collecting job => .next (collectPayload job s)
  | .idle => .next s
  | .accepting w rest =>
    match decode w with
    | .command i => exec i (acceptCommand rest s)
    | .illegal _ => .next (raise .illegalCommand (acceptCommand rest s))

/-- `s` with a table word offered on CMD so that the very next step accepts it (notes/assumptions/9.md). A number that
is no 64-bit word offers nothing. -/
def State.withFetchWord (s : State) (nbits w : Nat) : State :=
  match tableWord nbits w with
  | some word => offerNext word s
  | none => s

end Sys2Proof.Machine
end

