-- ==== Sys2Proof/Machine/Environment.lean ====
section
/-!
DEFINITION. What the host can do to the block between two of its steps (spec/30_encoding.md R65,
spec/70_reset_and_hazards.md R105), the interleavings of host and block, and several blocks side by side
(spec/60_exceptions.md R103).
-/

namespace Sys2Proof.Machine

/-- The host's interactions (R65, R105). Taking a response is the ready line together with the block's step. -/
inductive HostAction where
  /-- Offer one more command word on CMD. -/
  | issue (w : CmdWord)
  /-- Offer one more byte on DIN. -/
  | supply (b : Byte)
  /-- Drive the ready side of RSP. -/
  | setRspReady (level : Bool)
  /-- Assert or release reset. -/
  | setReset (level : Bool)
  deriving DecidableEq, Repr

/-- A host action changes the host's side of the ports and, but for asserting reset, nothing of the block. Asserting
reset takes effect at once (R105), so that a pulse that no step of the block sees is no less a reset. -/
def hostAct : HostAction → State → State
  | .issue w, s => { s with cmd := s.cmd ++ [w] }
  | .supply b, s => { s with din := s.din ++ [b] }
  | .setRspReady level, s => { s with rspReady := level }
  | .setReset true, s => { resetSequence s with resetAsserted := true }
  | .setReset false, s => { s with resetAsserted := false }

/-- One event of the block and its host. Host actions land between the block's steps (notes/assumptions/13.md). -/
inductive Event where
  | host (a : HostAction)
  | block
  deriving DecidableEq, Repr

/-- The outcome of one event. -/
def applyEvent : Event → State → Host.Outcome State Fault Refusal
  | .host a, s => .next (hostAct a s)
  | .block, s => step s

/-- A history of the block and its host, stopping at the first fault or refusal. -/
def runEvents : List Event → State → Host.Outcome State Fault Refusal
  | [], s => .next s
  | e :: rest, s =>
    match applyEvent e s with
    | .next t => runEvents rest t
    | .fault r => .fault r
    | .refused r => .refused r

/-! ## Several blocks

Each is an outcome of its own: the state it is in, or the fault or refusal that ended it. -/

/-- Several blocks: "Each has its own buffer, N, cursor and ports. They share no state" (R103). They have no
identifiers: the place in the list is only how a history names one. -/
abbrev Instances := List (Host.Outcome State Fault Refusal)

/-- An event at one block. A block that has faulted stays so (R97: "never cleared"), also when its host
asserts reset (DEDUCED, notes/assumptions/17.md). -/
def eventAt (e : Event) : Host.Outcome State Fault Refusal → Host.Outcome State Fault Refusal
  | .next s => applyEvent e s
  | .fault r => .fault r
  | .refused r => .refused r

/-- An event, the host's or the block's, at block `k` of several; a `k` that names no block changes nothing. The
model's reading, which the spec does not state (DEDUCED, notes/assumptions/17.md): a fault ends that block alone, and the
others can go on. -/
def Instances.applyAt (k : Nat) (e : Event) (m : Instances) : Instances := m.modify k (eventAt e)

/-- Block `k` of several takes a step. -/
def Instances.stepAt (k : Nat) (m : Instances) : Instances := m.applyAt k .block

/-- A history of several blocks and their hosts: any interleaving of their events, each at the block it names (R103:
"used concurrently with no coordination required"). -/
def Instances.run : List (Nat × Event) → Instances → Instances
  | [], m => m
  | (k, e) :: rest, m => Instances.run rest (m.applyAt k e)

/-- The events of a history that are block `k`'s own, in order. -/
def ownEvents (k : Nat) (history : List (Nat × Event)) : List Event :=
  (history.filter fun p => p.1 == k).map Prod.snd

end Sys2Proof.Machine
end

