-- ==== Sys2Proof/Machine/Assembler.lean ====
section
/-!
DEFINITION. The assembly lines of spec/30_encoding.md R62: what each puts on CMD and DIN, and how a line is read. No
pseudo-instructions exist (R63).
-/

namespace Sys2Proof.Machine

/-- One assembly line (R62). -/
inductive AsmLine where
  | new (bytes : List Byte)
  | read (width : Int)
  | bitat (index : Nat)
  /-- `.word`: any raw 64-bit word, "including illegal ones". -/
  | word (w : CmdWord)
  deriving DecidableEq, Repr

/-- The command word and the DIN bytes of a line (R62, R64). -/
def assembleLine : AsmLine → CmdWord × List Byte
  | .new bytes => (encode (.new bytes.length), bytes)
  | .read width => (encode (.read width), [])
  | .bitat index => (encode (.bitat index), [])
  | .word w => (w, [])

/-- The host's whole command sequence: the words and the bytes of the lines, each in order. -/
def assemble : List AsmLine → List CmdWord × List Byte
  | [] => ([], [])
  | line :: rest =>
    ((assembleLine line).1 :: (assemble rest).1, (assembleLine line).2 ++ (assemble rest).2)

/-- The host offers a whole program after whatever it offers already. -/
def offerProgram (lines : List AsmLine) (s : State) : State :=
  { s with cmd := s.cmd ++ (assemble lines).1, din := s.din ++ (assemble lines).2 }

/-- The value of a digit of base 16. -/
def digitValue (c : Char) : Option Nat :=
  if '0'.toNat ≤ c.toNat ∧ c.toNat ≤ '9'.toNat then some (c.toNat - '0'.toNat)
  else if 'a'.toNat ≤ c.toNat ∧ c.toNat ≤ 'f'.toNat then some (c.toNat - 'a'.toNat + 10)
  else if 'A'.toNat ≤ c.toNat ∧ c.toNat ≤ 'F'.toNat then some (c.toNat - 'A'.toNat + 10)
  else none

/-- Digits of a base, most significant first, after the value `acc`. -/
def readDigits (base : Nat) : List Char → Nat → Option Nat
  | [], acc => some acc
  | c :: rest, acc =>
    match digitValue c with
    | none => none
    | some d => if d < base then readDigits base rest (acc * base + d) else none

/-- A non-negative decimal or 0x-hex number (R62). -/
def readNat : List Char → Option Nat
  | [] => none
  | '0' :: 'x' :: d :: rest => readDigits 16 (d :: rest) 0
  | d :: rest => readDigits 10 (d :: rest) 0

/-- A signed decimal or 0x-hex number (R62). MODEL'S CHOICE (notes/assumptions/15.md): a minus sign may stand before
either form, and a hex number is the number it writes, never a raw two's-complement ARG, so that READ's 0x80000000 to
0xFFFFFFFF are too large and make no line. -/
def readInt : List Char → Option Int
  | '-' :: rest => (readNat rest).map fun k => -(k : Int)
  | cs => (readNat cs).map fun k => (k : Int)

/-- A space or a tab (notes/assumptions/15.md). -/
def isBlank (c : Char) : Bool := c == ' ' || c == '\t'

/-- Without the blanks at either end. -/
def trim (cs : List Char) : List Char :=
  ((cs.dropWhile isBlank).reverse.dropWhile isBlank).reverse

/-- The fields between commas, `field` the one being read, in reverse. -/
def splitCommas : List Char → List Char → List (List Char)
  | [], field => [trim field.reverse]
  | ',' :: rest, field => trim field.reverse :: splitCommas rest []
  | c :: rest, field => splitCommas rest (c :: field)

/-- The bytes of a NEW line, each 0..255 (R62); none after a bare NEW. -/
def readBytes (operands : List Char) : Option (List Byte) :=
  if operands = [] then some []
  else (splitCommas operands []).mapM fun field =>
    match readNat field with
    | some k => if k < 256 then some (BitVec.ofNat 8 k) else none
    | none => none

/-- The raw word of a `.word` line: 0x and exactly 16 hex digits (R62). -/
def readWord (operands : List Char) : Option CmdWord :=
  match operands with
  | '0' :: 'x' :: digits =>
    if digits.length = 16 then (readDigits 16 digits 0).map (BitVec.ofNat 64) else none
  | _ => none

/-- A line's text without its comment, which starts with `;` (R62), and without blanks at either end. -/
def lineBody (line : List Char) : List Char := trim (line.takeWhile (· != ';'))

/-- One line of text (R62). An operand that no ARG can hold is no line. -/
def readLine (line : List Char) : Option AsmLine :=
  let mnemonic := (lineBody line).takeWhile (!isBlank ·)
  let operands := trim ((lineBody line).dropWhile (!isBlank ·))
  if mnemonic = ['N', 'E', 'W'] then
    (readBytes operands).bind fun bytes =>
      if (Instr.new bytes.length).wellFormed then some (.new bytes) else none
  else if mnemonic = ['R', 'E', 'A', 'D'] then
    (readInt operands).bind fun width => if (Instr.read width).wellFormed then some (.read width) else none
  else if mnemonic = ['B', 'I', 'T', 'A', 'T'] then
    (readNat operands).bind fun index => if (Instr.bitat index).wellFormed then some (.bitat index) else none
  else if mnemonic = ['.', 'w', 'o', 'r', 'd'] then (readWord operands).map .word
  else none

/-- A program's text, line by line; lines with nothing but a comment are skipped. -/
def readProgram (lines : List (List Char)) : Option (List AsmLine) :=
  (lines.filter fun line => lineBody line != []).mapM readLine

end Sys2Proof.Machine
end

