-- ==== Sys2Proof/Safety.lean ====
section
/-!
DEFINITION. The terms claims are stated in: the invariant of the reachable states (spec/10_state.md R28, spec/00_scope.md
R9, spec/30_encoding.md R60), the form of a response word (R54, R55, R56), the little-endian integer of the input
(spec/10_state.md R25), and sequences of READs (spec/41_read.md R81, R83, R85).
-/

namespace Sys2Proof.Machine

/-- What holds of the reader itself (parameters, buffer, N, cursor) in every reachable state. -/
structure State.ReaderInv (s : State) : Prop where
  /-- R8, R9: the parameters are legal. -/
  legal : s.cfg.Legal
  /-- The buffer is in canonical form. -/
  wf : s.buffer.wf = true
  /-- R35: the buffer's addresses are exactly 0..N-1. -/
  covers : s.buffer.map Prod.fst = List.range s.n
  /-- R9: N is at most MAX_BYTES. -/
  fits : s.n ≤ s.cfg.maxBytes
  /-- R28. -/
  cursorLow : -1 ≤ s.cursor
  /-- R28. -/
  cursorHigh : s.cursor ≤ (s.n : Int) * 8 - 1

/-- What holds in every reachable state: the reader's invariant and that of a command in progress. -/
structure State.Inv (s : State) : Prop where
  reader : s.ReaderInv
  /-- R60: a NEW in progress was accepted (N <= MAX_BYTES) and still lacks a byte. -/
  lacks : ∀ job ∈ s.newInProgress, job.taken.length < job.count ∧ job.count ≤ s.cfg.maxBytes
  /-- R57: while a NEW is in progress its response has not been sent. -/
  oneAtATime : s.newInProgress = none ∨ s.rsp = none

/-- The form of every response: STATUS one of R55's codes, bits 59:32 zero (R54), VALUE 0 on a non-OK status (R56). -/
def responseForm (r : RspWord) : Bool :=
  decide (statusField r ≤ 5#4) && decide (zeroField r = 0#28) &&
    (decide (statusField r = Status.ok.code) || decide (valueField r = 0#32))

/-- Every response the block holds or has handed over has that form. -/
structure State.ResponsesFormed (s : State) : Prop where
  held : ∀ r ∈ s.rsp, responseForm r = true
  taken : ∀ r ∈ s.received, responseForm r = true

/-- The block takes its next command word from CMD: reset released, no response held, no NEW in progress (R50). -/
structure State.Free (s : State) : Prop where
  released : s.resetAsserted = false
  noResponse : s.rsp = none
  noNew : s.newInProgress = none

/-- The little-endian integer of a byte sequence: the sum over k of contents[k] * 2^(8k) (R25). -/
def littleEndian : List Byte → Nat
  | [] => 0
  | b :: rest => b.toNat + 2 ^ 8 * littleEndian rest

/-- The input bytes of the current buffer, in the caller's order: the logical bytes reversed (R21). -/
def State.contents (s : State) : List Byte := (s.buffer.map Prod.snd).reverse

/-- L, the little-endian integer of the input (R25). -/
def State.stream (s : State) : Nat := littleEndian s.contents

/-- Responses and NEWs the block has answered or still owes: each accepted word adds exactly one (R57). -/
def State.answers (s : State) : Nat := s.received.length + s.rsp.toList.length + s.newInProgress.toList.length

/-- `k` steps of the block with no host action between them, stopping at the first fault or refusal. -/
def runSteps : Nat → State → Host.Outcome State Fault Refusal
  | 0, s => .next s
  | k + 1, s =>
    match step s with
    | .next t => runSteps k t
    | .fault r => .fault r
    | .refused r => .refused r

/-- Commands run one after another, each from the state the one before left. -/
def execAll : List Instr → State → Host.Outcome State Fault Refusal
  | [], s => .next s
  | i :: rest, s =>
    match exec i s with
    | .next t => execAll rest t
    | .fault r => .fault r
    | .refused r => .refused r

/-- Whether a command builds a new reader. -/
def isNew : Instr → Bool
  | .new _ => true
  | .read _ => false
  | .bitat _ => false

/-- READs of these widths in order, each of which must answer OK; the codes, and the state after the last. -/
def readCodes : List Nat → State → Option (List Nat × State)
  | [], s => some ([], s)
  | w :: rest, s =>
    match exec (.read w) s with
    | .next t =>
      match t.rsp with
      | some r =>
        if statusField r = Status.ok.code then
          (readCodes rest t).map fun out => ((valueField r).toNat :: out.1, out.2)
        else none
      | none => none
    | .fault _ => none
    | .refused _ => none

/-- R81's closed form, code by code: from `c` bits consumed, the codes of these widths of the stream `l`. -/
def streamCodes (l : Nat) : Nat → List Nat → List Nat
  | _, [] => []
  | c, w :: rest => (l >>> c) % 2 ^ w :: streamCodes l (c + w) rest

/-- R85's sum: each later code placed above the earlier ones. -/
def reassemble : List Nat → List Nat → Nat
  | w :: ws, code :: codes => code + 2 ^ w * reassemble ws codes
  | _, _ => 0

end Sys2Proof.Machine
end

