-- ==== Sys2Proof/Certificates/Slice0/Obligations.lean ====
section
/-!
DEFINITION. The statements for the provers, each about `step`, the meanings it dispatches to, or the decoder. Responses
are written as the 64-bit words of spec/30_encoding.md R54 and R55: 0x0… OK, 0x1… EXHAUSTED, 0x2… INVALID_WIDTH,
0x3… INDEX_OUT_OF_RANGE, 0x4… ILLEGAL_COMMAND, 0x5… CAPACITY_EXCEEDED.
-/

open Sys2Proof Sys2Proof.Machine

/-! ## Reset -/

/-- R34: the reset values, and that they are the state after NEW of the empty sequence. -/
def Obligations.ResetIsTheEmptyReader : Prop :=
  State.reset.n = 0 ∧ State.reset.buffer = [] ∧ State.reset.cursor = -1 ∧ State.reset.newInProgress = none ∧
    State.reset.rsp = none ∧
    ∃ t, exec (.new 0) State.reset = .next t ∧ t.n = State.reset.n ∧ t.buffer = State.reset.buffer ∧
      t.cursor = State.reset.cursor ∧ t.newInProgress = none

/-- R105, R106: asserting reset at once abandons the command in progress with the bytes it took, discards the held
response, and leaves the empty reader; the block stays so while reset is asserted; once released, it takes its next
command from CMD. That offered words and bytes stay offered is the model's reading (notes/assumptions/5.md). -/
def Obligations.ResetSequenceLeavesTheEmptyReader : Prop :=
  (∀ s : State, hostAct (.setReset true) s =
    { s with buffer := [], n := 0, cursor := -1, newInProgress := none, rsp := none, resetAsserted := true }) ∧
  ∀ s : State, s.resetAsserted = true →
    ∃ t, step s = .next t ∧
      t = { s with buffer := [], n := 0, cursor := -1, newInProgress := none, rsp := none } ∧
      ∀ w rest i, s.cmd = w :: rest → decode w = .command i →
        step (hostAct (.setReset false) t) = exec i { t with resetAsserted := false, cmd := rest }

/-- R107: until the first NEW, whatever READs and BITATs come in between, the block is the empty reader. -/
def Obligations.UntilTheFirstNewTheReaderIsEmpty : Prop :=
  ∀ (c : Config) (before : List Instr) (u : State), before.all (fun i => !isNew i) = true →
    execAll before { State.reset with cfg := c } = .next u →
      exec (.read 0) u = .next { u with rsp := some 0x0000000000000000#64 } ∧
      (∀ w : Int, 1 ≤ w → w ≤ c.maxWidth →
        exec (.read w) u = .next { u with rsp := some 0x1000000000000000#64 }) ∧
      (∀ k : Nat, exec (.bitat k) u = .next { u with rsp := some 0x3000000000000000#64 }) ∧
      (∀ w : Int, w < 0 ∨ (c.maxWidth : Int) < w →
        exec (.read w) u = .next { u with rsp := some 0x2000000000000000#64 })

/-! ## Encoding -/

/-- R64: the spec's encoding examples, word by word. -/
def Obligations.SpecExampleWordsDecode : Prop :=
  assembleLine (.new [0x12#8, 0x34#8]) = (0x1000000000000002#64, [0x12#8, 0x34#8]) ∧
    decode 0x1000000000000002#64 = .command (.new 2) ∧
    assembleLine (.new []) = (0x1000000000000000#64, []) ∧ decode 0x1000000000000000#64 = .command (.new 0) ∧
    assembleLine (.read 4) = (0x2000000000000004#64, []) ∧ decode 0x2000000000000004#64 = .command (.read 4) ∧
    assembleLine (.read 0) = (0x2000000000000000#64, []) ∧ decode 0x2000000000000000#64 = .command (.read 0) ∧
    assembleLine (.read (-1)) = (0x20000000FFFFFFFF#64, []) ∧
    decode 0x20000000FFFFFFFF#64 = .command (.read (-1)) ∧
    assembleLine (.read 33) = (0x2000000000000021#64, []) ∧ decode 0x2000000000000021#64 = .command (.read 33) ∧
    assembleLine (.bitat 7) = (0x3000000000000007#64, []) ∧ decode 0x3000000000000007#64 = .command (.bitat 7) ∧
    assembleLine (.word 0x0000000000000000#64) = (0x0000000000000000#64, []) ∧
    decode 0x0000000000000000#64 = .illegal .reservedOp ∧
    assembleLine (.word 0x2000000100000004#64) = (0x2000000100000004#64, []) ∧
    decode 0x2000000100000004#64 = .illegal .reservedBits ∧
    responseWord .ok 2#32 = 0x0000000000000002#64 ∧
    responseWord .exhausted 0#32 = 0x1000000000000000#64 ∧
    responseWord .invalidWidth 0#32 = 0x2000000000000000#64

/-- R61 (with R51, R53): the decoder by the word's fields; a word is illegal exactly as R58 says. -/
def Obligations.DecodingFollowsTheFields : Prop :=
  ∀ w : CmdWord,
    (w.extractLsb' 32 28 = 0#28 → w.extractLsb' 60 4 = 0x1#4 →
      decode w = .command (.new (w.extractLsb' 0 32).toNat)) ∧
    (w.extractLsb' 32 28 = 0#28 → w.extractLsb' 60 4 = 0x2#4 →
      decode w = .command (.read (w.extractLsb' 0 32).toInt)) ∧
    (w.extractLsb' 32 28 = 0#28 → w.extractLsb' 60 4 = 0x3#4 →
      decode w = .command (.bitat (w.extractLsb' 0 32).toNat)) ∧
    ((∃ why, decode w = .illegal why) ↔
      w.extractLsb' 32 28 ≠ 0#28 ∨ w.extractLsb' 60 4 = 0x0#4 ∨ 0x4#4 ≤ w.extractLsb' 60 4)

/-- The opcode table's match and mask (the encoding lines of R70, R75, R88) select exactly the words that decode to the
row's command. -/
def Obligations.TableMasksSelectTheCommand : Prop :=
  ∀ w : CmdWord,
    (w &&& 0xFFFFFFFF00000000#64 = 0x1000000000000000#64 ↔ ∃ count, decode w = .command (.new count)) ∧
    (w &&& 0xFFFFFFFF00000000#64 = 0x2000000000000000#64 ↔ ∃ width, decode w = .command (.read width)) ∧
    (w &&& 0xFFFFFFFF00000000#64 = 0x3000000000000000#64 ↔ ∃ index, decode w = .command (.bitat index))

/-- Every well-formed command is read back from its word, each operand at each value ARG admits. -/
def Obligations.DecodeOfEncode : Prop :=
  ∀ i : Instr, i.wellFormed = true → decode (encode i) = .command i

/-- Every word that decodes to a command is that command's one word, and the command is well-formed. -/
def Obligations.EncodeOfDecode : Prop :=
  ∀ (w : CmdWord) (i : Instr), decode w = .command i → i.wellFormed = true ∧ encode i = w

/-- R62: offered to a free block, an assembled NEW line constructs the reader over its bytes. -/
def Obligations.AssembledNewLineConstructs : Prop :=
  ∀ (s : State) (bytes : List Byte), s.Free → s.cmd = [] → s.din = [] → s.cfg.Legal →
    bytes.length ≤ s.cfg.maxBytes →
    step (offerProgram [.new bytes] s) =
      .next { s with
        buffer := Memory.ofBytes bytes.reverse
        n := bytes.length
        cursor := (bytes.length : Int) * 8 - 1
        rsp := some 0x0000000000000000#64 }

/-! ## The step -/

/-- A free block accepts CMD's head and runs the command it decodes to. -/
def Obligations.StepRunsTheDecodedCommand : Prop :=
  ∀ (s : State) (w : CmdWord) (rest : List CmdWord) (i : Instr), s.Free → s.cmd = w :: rest →
    decode w = .command i → step s = exec i { s with cmd := rest }

/-- A table word placed by `withFetchWord` is the very next command, in every state (notes/assumptions/9.md). -/
def Obligations.PlacedTableWordRunsNext : Prop :=
  ∀ (s : State) (nbits w : Nat) (i : Instr), decodeTableWord nbits w = some i →
    step (s.withFetchWord nbits w) =
      exec i { s with
        resetAsserted := false
        newInProgress := none
        rsp := none
        received := s.received ++ s.rsp.toList }

/-- R58: an illegal word is answered ILLEGAL_COMMAND with VALUE 0; no state changes and no byte is taken. -/
def Obligations.IllegalWordIsAnsweredIllegalCommand : Prop :=
  ∀ (s : State) (w : CmdWord) (rest : List CmdWord), s.Free → s.cmd = w :: rest →
    (w.extractLsb' 32 28 ≠ 0#28 ∨ w.extractLsb' 60 4 = 0x0#4 ∨ 0x4#4 ≤ w.extractLsb' 60 4) →
    step s = .next { s with cmd := rest, rsp := some 0x4000000000000000#64 }

/-- R65: a held response stays until the host is ready, and then moves to the host. That no command is accepted
meanwhile is notes/assumptions/3.md. -/
def Obligations.ResponseIsHeldUntilTaken : Prop :=
  ∀ (s : State) (r : RspWord), s.resetAsserted = false → s.rsp = some r →
    (s.rspReady = false → step s = .next s) ∧
    (s.rspReady = true → step s = .next { s with rsp := none, received := s.received ++ [r] })

/-- R57: outside reset, the words not yet accepted and the answers given or owed add up to the same number before and
after every step, and responses reach the host in order, one at a time. -/
def Obligations.EachAcceptedWordIsAnsweredOnce : Prop :=
  ∀ s t : State, s.resetAsserted = false → (s.newInProgress = none ∨ s.rsp = none) → step s = .next t →
    t.answers + t.cmd.length = s.answers + s.cmd.length ∧ (t.newInProgress = none ∨ t.rsp = none) ∧
      ((t.received = s.received ∧ (s.rsp = none ∨ t.rsp = s.rsp)) ∨
        ∃ r, s.rsp = some r ∧ t.rsp = none ∧ t.received = s.received ++ [r])

/-- R60: a byte of DIN is taken only by the NEW in progress or by a NEW that this step accepts, and while a NEW is in
progress no command is accepted. That one step takes every lacking byte on offer is notes/assumptions/6.md; that neither
happens while a response is held is notes/assumptions/3.md. -/
def Obligations.DinIsTakenOnlyForNew : Prop :=
  ∀ s t : State, step s = .next t →
    (s.newInProgress ≠ none → t.cmd = s.cmd) ∧
    (t.din = s.din ∨
      (s.resetAsserted = false ∧ s.rsp = none ∧ ∃ job, s.newInProgress = some job ∧
        t.din = s.din.drop (job.count - job.taken.length)) ∨
      (s.Free ∧ ∃ w rest count, s.cmd = w :: rest ∧ decode w = .command (.new count) ∧ count ≤ s.cfg.maxBytes ∧
        t.cmd = rest ∧ t.din = s.din.drop count))

/-- R60: a payload that arrives in two parts builds what the whole payload builds at once. That the one step after the
rest is offered takes all of it is notes/assumptions/6.md. -/
def Obligations.PayloadMayArriveInParts : Prop :=
  ∀ (s : State) (count : Nat) (first later : List Byte), s.resetAsserted = false → s.rsp = none →
    count ≤ s.cfg.maxBytes → first.length < count →
    ∃ t, exec (.new count) { s with din := first } = .next t ∧ t.rsp = none ∧
      step { t with din := later } = exec (.new count) { s with din := first ++ later }

/-- R60, R112: a NEW in progress whose missing bytes are all offered constructs and responds OK in one step. -/
def Obligations.CompletedPayloadIsAnswered : Prop :=
  ∀ (s : State) (job : Payload) (missing rest : List Byte), s.resetAsserted = false → s.rsp = none →
    s.newInProgress = some job → s.din = missing ++ rest → job.taken.length + missing.length = job.count →
    step s = .next { s with
      buffer := Memory.ofBytes (job.taken ++ missing).reverse
      n := job.count
      cursor := (job.count : Int) * 8 - 1
      newInProgress := none
      din := rest
      rsp := some 0x0000000000000000#64 }

/-- R65, R110: with fewer bytes than the NEW lacks, the block waits: however many steps it takes, the NEW stays in
progress and no response comes. That the first step takes every byte on offer is notes/assumptions/6.md, and that waiting
is a step is notes/assumptions/7.md. -/
def Obligations.ShortPayloadNeverResponds : Prop :=
  ∀ (s : State) (job : Payload) (k : Nat), s.resetAsserted = false → s.rsp = none → s.newInProgress = some job →
    job.taken.length + s.din.length < job.count →
    runSteps (k + 1) s =
      .next { s with newInProgress := some { count := job.count, taken := job.taken ++ s.din }, din := [] }

/-- R8, R9: no step writes the parameters. -/
def Obligations.ParametersNeverChange : Prop :=
  ∀ s t : State, step s = .next t → t.cfg = s.cfg

/-- R103: an event of one block, its own step or its host's action, leaves every other block as it was, and events of
two different blocks commute. That a fault ends its own block alone is the model's reading (notes/assumptions/17.md). -/
def Obligations.InstancesDoNotInterfere : Prop :=
  ∀ (m : Instances) (k j : Nat) (e f : Event), k ≠ j →
    (m.applyAt k e)[j]? = m[j]? ∧ (m.applyAt k e).applyAt j f = (m.applyAt j f).applyAt k e

/-- R103: whatever the interleaving of several blocks and their hosts, each block ends as its own events alone leave it,
and none is added or lost. A block that has faulted stays so (R97), whatever its host does, and the others go on: the model's reading,
notes/assumptions/17.md. -/
def Obligations.EachInstanceLivesItsOwnHistory : Prop :=
  ∀ (history : List (Nat × Event)) (m : Instances),
    (Instances.run history m).length = m.length ∧
    (∀ (k : Nat) (s : State), m[k]? = some (.next s) →
      (Instances.run history m)[k]? = some (runEvents (ownEvents k history) s)) ∧
    ∀ (k : Nat) (r : Fault), m[k]? = some (.fault r) → (Instances.run history m)[k]? = some (.fault r)

/-! ## NEW -/

/-- R70, R72: NEW's word, its capacity check, which changes nothing and takes no byte, and the reader it constructs over the payload, whose logical byte j is input
byte N-1-j and which has no byte outside 0..N-1. -/
def Obligations.NewConstructsTheReader : Prop :=
  (∀ arg : BitVec 32, decode (0x10000000#32 ++ arg) = .command (.new arg.toNat)) ∧
  (∀ (s : State) (count : Nat), s.cfg.maxBytes < count →
    exec (.new count) s = .next { s with rsp := some 0x5000000000000000#64 }) ∧
  (∀ (s : State) (contents rest : List Byte), contents.length ≤ s.cfg.maxBytes → s.din = contents ++ rest →
    ∃ buffer, exec (.new contents.length) s =
        .next { s with
          buffer := buffer
          n := contents.length
          cursor := (contents.length : Int) * 8 - 1
          newInProgress := none
          din := rest
          rsp := some 0x0000000000000000#64 } ∧
      (∀ j, j < contents.length → Memory.read buffer j = contents[contents.length - 1 - j]?) ∧
      (∀ j, contents.length ≤ j → Memory.read buffer j = none))

/-- R71: NEW with N = 0, from any state, and what each command then answers. -/
def Obligations.NewOfNothingIsDrained : Prop :=
  ∀ s : State, ∃ t, exec (.new 0) s = .next t ∧ t.rsp = some 0x0000000000000000#64 ∧ t.buffer = [] ∧ t.n = 0 ∧
    t.cursor = -1 ∧
    (∀ w : Int, 1 ≤ w → w ≤ s.cfg.maxWidth →
      exec (.read w) t = .next { t with rsp := some 0x1000000000000000#64 }) ∧
    exec (.read 0) t = .next { t with rsp := some 0x0000000000000000#64 } ∧
    (∀ k : Nat, exec (.bitat k) t = .next { t with rsp := some 0x3000000000000000#64 })

/-- R33, R73: NEW writes buffer, N and cursor all together when its payload is complete, and none of them before; it
never writes the parameters, CMD, RSP's ready line, the host's record or the reset input. That a short payload's bytes
are all taken at once is notes/assumptions/6.md. -/
def Obligations.NewFrame : Prop :=
  ∀ (s t : State) (count : Nat), exec (.new count) s = .next t →
    t.cfg = s.cfg ∧ t.cmd = s.cmd ∧ t.rspReady = s.rspReady ∧ t.received = s.received ∧
      t.resetAsserted = s.resetAsserted ∧
      (count ≤ s.cfg.maxBytes → count ≤ s.din.length →
        t.buffer = Memory.ofBytes (s.din.take count).reverse ∧ t.n = count ∧ t.cursor = (count : Int) * 8 - 1 ∧
          t.din = s.din.drop count) ∧
      (count ≤ s.cfg.maxBytes → s.din.length < count →
        t.buffer = s.buffer ∧ (∀ a, t.buffer.read a = s.buffer.read a) ∧ t.n = s.n ∧ t.cursor = s.cursor ∧
          t.rsp = s.rsp ∧ t.newInProgress = some { count := count, taken := s.din } ∧ t.din = []) ∧
      (s.cfg.maxBytes < count →
        t.buffer = s.buffer ∧ (∀ a, t.buffer.read a = s.buffer.read a) ∧ t.n = s.n ∧ t.cursor = s.cursor ∧
          t.newInProgress = s.newInProgress ∧ t.din = s.din)

/-- R74: what holds right after NEW of `contents`, from any state. READ 8 needs 8 <= MAX_WIDTH. -/
def Obligations.AfterNewTheBytesComeBackInOrder : Prop :=
  ∀ (s : State) (contents rest : List Byte), s.cfg.Legal → contents.length ≤ s.cfg.maxBytes →
    s.din = contents ++ rest →
    ∃ t, exec (.new contents.length) s = .next t ∧
      t.remaining = (contents.length : Int) * 8 ∧
      (t.active = true ↔ 1 ≤ contents.length) ∧
      (∀ i : Nat, i < contents.length * 8 →
        bitAt t i = some (BitVec.ofBool ((littleEndian contents).testBit (contents.length * 8 - 1 - i)))) ∧
      (8 ≤ s.cfg.maxWidth →
        ∃ u, readCodes (List.replicate contents.length 8) t = some (contents.map BitVec.toNat, u))

/-! ## READ -/

/-- R76: the width check, before every other check. -/
def Obligations.ReadOfInvalidWidthChangesNothing : Prop :=
  ∀ (s : State) (w : Int), w < 0 ∨ (s.cfg.maxWidth : Int) < w →
    exec (.read w) s = .next { s with rsp := some 0x2000000000000000#64 }

/-- R77: READ 0, in every state. -/
def Obligations.ReadOfWidthZeroReturnsZero : Prop :=
  ∀ s : State, exec (.read 0) s = .next { s with rsp := some 0x0000000000000000#64 }

/-- R78: for 1 <= width <= MAX_WIDTH, EXHAUSTED exactly when width > remaining, with nothing changed. -/
def Obligations.ReadExhaustsExactlyBeyondTheRemainingBits : Prop :=
  ∀ (s : State) (w : Int), s.ReaderInv → 1 ≤ w → w ≤ s.cfg.maxWidth →
    (s.wouldExhaust w = true ↔ s.remaining < w) ∧
    (s.remaining < w → exec (.read w) s = .next { s with rsp := some 0x1000000000000000#64 }) ∧
    (w ≤ s.remaining → ∃ t r, exec (.read w) s = .next t ∧ t.rsp = some r ∧ statusField r = 0x0#4)

/-- R81 with R80: a successful READ's code is (L >> c) mod 2^w, its bit t is bit (c+t) mod 8 of input byte (c+t) div 8,
the cursor falls by w (consumed rises by w) and nothing else changes. -/
def Obligations.ReadReturnsTheStreamBits : Prop :=
  ∀ (s : State) (w : Nat), s.ReaderInv → 1 ≤ w → w ≤ s.cfg.maxWidth → (w : Int) ≤ s.remaining →
    ∃ code t, code = (s.stream >>> s.consumed.toNat) % 2 ^ w ∧
      exec (.read w) s = .next t ∧
      t = { s with cursor := s.cursor - w, rsp := some (responseWord .ok (BitVec.ofNat 32 code)) } ∧
      (BitVec.ofNat 32 code).toNat = code ∧
      t.consumed = s.consumed + w ∧ -1 ≤ t.cursor ∧ t.cursor = (s.cursor - w + 1) - 1 ∧
      ∀ k, k < w → ∃ b, s.contents[(s.consumed.toNat + k) / 8]? = some b ∧
        code.testBit k = b.getLsbD ((s.consumed.toNat + k) % 8)

/-- R79: result bit k is the bit at index cursor - k. -/
def Obligations.ReadAssemblesFromTheCursorUpward : Prop :=
  ∀ (s : State) (w : Nat), s.ReaderInv → 1 ≤ w → w ≤ s.cfg.maxWidth → (w : Int) ≤ s.remaining →
    ∃ t r, exec (.read w) s = .next t ∧ t.rsp = some r ∧ statusField r = 0x0#4 ∧
      (∀ k : Nat, k < w → ∃ bit, bitAt s (s.cursor - k) = some bit) ∧
      (valueField r).toNat =
        ∑ k ∈ Finset.range w, ((bitAt s (s.cursor - (k : Int))).getD 0#1).toNat * 2 ^ k ∧
      (valueField r).toNat < 2 ^ w

/-- R84: every index READ passes to bitAt names a bit, and READ never faults. -/
def Obligations.ReadNeverLeavesTheBuffer : Prop :=
  ∀ (s : State) (w : Int), s.ReaderInv →
    (1 ≤ w → 0 ≤ s.cursor - w + 1 → ∀ i : Int, s.cursor - w + 1 ≤ i → i ≤ s.cursor →
      0 ≤ i ∧ i < (s.n : Int) * 8 ∧ (bitAt s i).isSome = true) ∧
    ∀ r, exec (.read w) s ≠ .fault r

/-- R97: bitAt outside 0..N*8-1 has no value; READ that reaches it is a fault that no later step clears; BITAT that names
it is the status, with nothing changed (R89). -/
def Obligations.IndexOutOfRangeHasTwoForms : Prop :=
  (∀ (s : State) (i : Int), i < 0 ∨ (s.n : Int) * 8 ≤ i → bitAt s i = none) ∧
  (∀ (s : State) (w : Int), 1 ≤ w → w ≤ s.cfg.maxWidth → 0 ≤ s.cursor - w + 1 → (s.n : Int) * 8 ≤ s.cursor →
    exec (.read w) s = .fault .indexOutOfRange) ∧
  (∀ (s : State) (r : Fault) (k : Nat), step s = .fault r → runSteps (k + 1) s = .fault r) ∧
  (∀ (s : State) (k : Nat), s.n * 8 ≤ k →
    exec (.bitat k) s = .next { s with rsp := some 0x3000000000000000#64 })

/-- R82: READ's outcome rests on the buffer, the cursor and the width alone; after READ w fails, a width that fits succeeds with the closed form's value; READ w and every larger width fail
again until a NEW, whatever commands come in between; and once the cursor is -1 every width fails until a NEW. -/
def Obligations.ReadOutcomeRestsOnCursorAndWidth : Prop :=
  (∀ (s s' t : State) (w : Int), s'.cfg = s.cfg → s'.buffer = s.buffer → s'.n = s.n → s'.cursor = s.cursor →
    exec (.read w) s = .next t → exec (.read w) s' = .next { s' with cursor := t.cursor, rsp := t.rsp }) ∧
  (∀ (s t : State) (w : Int) (v : Nat), s.ReaderInv → 1 ≤ w → w ≤ s.cfg.maxWidth → s.remaining < w →
    exec (.read w) s = .next t → 1 ≤ v → v ≤ s.cfg.maxWidth → (v : Int) ≤ t.remaining →
    exec (.read v) t = .next { s with
      cursor := s.cursor - v
      rsp := some (responseWord .ok (BitVec.ofNat 32 ((s.stream >>> s.consumed.toNat) % 2 ^ v))) }) ∧
  (∀ (s t : State) (between : List Instr) (w v : Int), 1 ≤ w → w ≤ s.cfg.maxWidth → s.remaining < w →
    between.all (fun i => !isNew i) = true → execAll (.read w :: between) s = .next t →
    w ≤ v → v ≤ s.cfg.maxWidth →
    exec (.read v) t = .next { t with rsp := some 0x1000000000000000#64 }) ∧
  (∀ (s t : State) (between : List Instr) (v : Int), s.drained = true →
    between.all (fun i => !isNew i) = true → execAll between s = .next t → 1 ≤ v → v ≤ s.cfg.maxWidth →
    exec (.read v) t = .next { t with rsp := some 0x1000000000000000#64 })

/-- R83: READs right after NEW of N bytes succeed up to a running total of N*8 bits, and the first that passes it
fails. -/
def Obligations.ExhaustionBoundary : Prop :=
  ∀ (s : State) (contents rest : List Byte) (widths : List Nat), s.cfg.Legal →
    contents.length ≤ s.cfg.maxBytes → s.din = contents ++ rest →
    (∀ w ∈ widths, 1 ≤ w ∧ w ≤ s.cfg.maxWidth) →
    ∃ t, exec (.new contents.length) s = .next t ∧
      (widths.sum ≤ contents.length * 8 → ∃ codes u, readCodes widths t = some (codes, u) ∧
        (widths.sum = contents.length * 8 → u.cursor = -1 ∧
          exec (.read 1) u = .next { u with rsp := some 0x1000000000000000#64 })) ∧
      (∀ before w after, widths = before ++ w :: after → before.sum ≤ contents.length * 8 →
        contents.length * 8 < before.sum + w → ∃ codes u, readCodes before t = some (codes, u) ∧
          exec (.read w) u = .next { u with rsp := some 0x1000000000000000#64 })

/-- R85: the codes of READs that cover all N*8 bits, later codes placed higher, make the input's little-endian
integer. -/
def Obligations.CodesReassembleTheInput : Prop :=
  ∀ (s : State) (contents rest : List Byte) (widths : List Nat), s.cfg.Legal →
    contents.length ≤ s.cfg.maxBytes → s.din = contents ++ rest → (∀ w ∈ widths, w ≤ s.cfg.maxWidth) →
    widths.sum = contents.length * 8 →
    ∃ t codes u, exec (.new contents.length) s = .next t ∧ readCodes widths t = some (codes, u) ∧
      reassemble widths codes = littleEndian contents

/-- R23: the cursor never increases but by reset or a NEW that completes, the one that was collecting or one that this
step accepts; a lower cursor is an accepted, successful READ of that width. That neither happens while a response is held
is notes/assumptions/3.md. -/
def Obligations.CursorFallsOnlyByASuccessfulRead : Prop :=
  ∀ s t : State, step s = .next t →
    t.cursor = s.cursor ∨
    (s.resetAsserted = true ∧ t.cursor = -1) ∨
    (s.Free ∧ ∃ w rest width r, s.cmd = w :: rest ∧ decode w = .command (.read width) ∧ t.cmd = rest ∧ 1 ≤ width ∧
      t.cursor = s.cursor - width ∧ t.rsp = some r ∧ statusField r = 0x0#4) ∨
    (((s.resetAsserted = false ∧ s.rsp = none ∧ t.cmd = s.cmd ∧
          ∃ job, s.newInProgress = some job ∧ t.n = job.count) ∨
        (s.Free ∧ ∃ w rest count, s.cmd = w :: rest ∧ decode w = .command (.new count) ∧ t.cmd = rest ∧
          t.n = count)) ∧
      t.newInProgress = none ∧ t.rsp = some 0x0000000000000000#64 ∧ t.cursor = (t.n : Int) * 8 - 1)

/-- A run of the machine over offered READ words, with a host that takes each response: two steps a command, the
responses R81's codes in order, and nothing else of the block changed but the cursor. That one step answers and another
hands over before the next word is accepted is notes/assumptions/3.md and 4.md. -/
def Obligations.OfferedReadsRunToTheirCodes : Prop :=
  ∀ (s : State) (widths : List Nat) (rest : List CmdWord), s.Inv → s.Free → s.rspReady = true →
    (∀ w ∈ widths, 1 ≤ w ∧ w ≤ s.cfg.maxWidth) → (widths.sum : Int) ≤ s.remaining →
    s.cmd = widths.map (fun w : Nat => encode (.read (w : Int))) ++ rest →
    runSteps (2 * widths.length) s =
      .next { s with
        cmd := rest
        cursor := s.cursor - widths.sum
        received := s.received ++
          (streamCodes s.stream s.consumed.toNat widths).map fun code => responseWord .ok (BitVec.ofNat 32 code) }

/-! ## BITAT -/

/-- R91 with R88: bit index i is bit 7 - (i mod 8) of input byte N-1-(i div 8), which is bit N*8-1-i of L, and BITAT
answers it zero-extended and changes nothing. -/
def Obligations.BitatReturnsTheNamedBit : Prop :=
  ∀ (s : State) (k : Nat), s.ReaderInv → k < s.n * 8 →
    ∃ b, s.contents[s.n - 1 - k / 8]? = some b ∧
      b.getLsbD (7 - k % 8) = s.stream.testBit (s.n * 8 - 1 - k) ∧
      bitAt s k = some (BitVec.ofBool (b.getLsbD (7 - k % 8))) ∧
      exec (.bitat k) s =
        .next { s with rsp := some (if b.getLsbD (7 - k % 8) then 0x0000000000000001#64 else 0x0000000000000000#64) }

/-- R90: BITAT writes nothing but its response, and answers the same until the next NEW. -/
def Obligations.BitatIsPure : Prop :=
  ∀ (s t : State) (k : Nat), exec (.bitat k) s = .next t →
    t = { s with rsp := t.rsp } ∧
      ∀ (between : List Instr) (u : State), between.all (fun i => !isNew i) = true → execAll between s = .next u →
        ∃ v, exec (.bitat k) u = .next v ∧ v.rsp = t.rsp

/-! ## All commands -/

/-- R33: READ and BITAT write at most the cursor and the response; every byte of the buffer reads as before. -/
def Obligations.ReadAndBitatFrame : Prop :=
  ∀ (i : Instr) (s t : State), isNew i = false → exec i s = .next t →
    t.cfg = s.cfg ∧ t.buffer = s.buffer ∧ (∀ a, t.buffer.read a = s.buffer.read a) ∧ t.n = s.n ∧
      t.newInProgress = s.newInProgress ∧ t.cmd = s.cmd ∧ t.din = s.din ∧ t.rspReady = s.rspReady ∧
      t.received = s.received ∧ t.resetAsserted = s.resetAsserted ∧
      (∀ k, i = .bitat k → t.cursor = s.cursor) ∧
      (∀ w, i = .read w → t.cursor = s.cursor ∨ (1 ≤ w ∧ t.cursor = s.cursor - w))

/-- R94: a command that ends with a non-OK status changes nothing but that its word is accepted and its response held,
takes no byte, and has VALUE 0. -/
def Obligations.ErrorsChangeNothing : Prop :=
  ∀ (s t : State) (w : CmdWord) (rest : List CmdWord) (r : RspWord), s.Free → s.cmd = w :: rest →
    step s = .next t → t.rsp = some r → statusField r ≠ 0x0#4 →
    t = { s with cmd := rest, rsp := some r } ∧ valueField r = 0#32

/-- R100: the one status each word is answered with, the first condition that holds in the spec's order. A NEW whose
payload is short has no response yet. -/
def Obligations.FirstConditionGivesTheStatus : Prop :=
  ∀ (s : State) (w : CmdWord) (rest : List CmdWord), s.Inv → s.Free → s.cmd = w :: rest →
    ∃ t, step s = .next t ∧
      (t.rsp = none ↔ w.extractLsb' 32 28 = 0#28 ∧ w.extractLsb' 60 4 = 0x1#4 ∧
        (w.extractLsb' 0 32).toNat ≤ s.cfg.maxBytes ∧ s.din.length < (w.extractLsb' 0 32).toNat) ∧
      ∀ r, t.rsp = some r → statusField r =
        if w.extractLsb' 32 28 ≠ 0#28 then 0x4#4
        else if w.extractLsb' 60 4 = 0x1#4 then
          if s.cfg.maxBytes < (w.extractLsb' 0 32).toNat then 0x5#4 else 0x0#4
        else if w.extractLsb' 60 4 = 0x2#4 then
          if (w.extractLsb' 0 32).toInt < 0 ∨ (s.cfg.maxWidth : Int) < (w.extractLsb' 0 32).toInt then 0x2#4
          else if (w.extractLsb' 0 32).toInt = 0 then 0x0#4
          else if s.cursor - (w.extractLsb' 0 32).toInt + 1 < 0 then 0x1#4
          else 0x0#4
        else if w.extractLsb' 60 4 = 0x3#4 then
          if s.n * 8 ≤ (w.extractLsb' 0 32).toNat then 0x3#4 else 0x0#4
        else 0x4#4

/-! ## Invariants -/

/-- The invariant holds at reset, for every legal choice of the parameters. -/
def Obligations.ResetMeetsTheInvariant : Prop :=
  (State.reset).Inv ∧ ∀ c : Config, c.Legal → ({ State.reset with cfg := c } : State).Inv

/-- Every step keeps the invariant. -/
def Obligations.StepKeepsTheInvariant : Prop :=
  ∀ s t : State, s.Inv → step s = .next t → t.Inv

/-- The invariant survives every interleaving of the block's steps with the host's actions. -/
def Obligations.EveryHistoryKeepsTheInvariant : Prop :=
  ∀ (events : List Event) (s t : State), s.Inv → runEvents events s = .next t → t.Inv

/-- From a state that meets the invariant no history stops: the block neither faults nor refuses. -/
def Obligations.NoHistoryStops : Prop :=
  ∀ (events : List Event) (s : State), s.Inv → ∃ t, runEvents events s = .next t

/-- R28: in every state that a history from reset reaches, -1 <= cursor <= N*8-1. -/
def Obligations.ReachableCursorStaysInRange : Prop :=
  ∀ (c : Config) (events : List Event) (t : State), c.Legal →
    runEvents events { State.reset with cfg := c } = .next t → -1 ≤ t.cursor ∧ t.cursor ≤ (t.n : Int) * 8 - 1

/-- R54, R55, R56: every step keeps the form of the responses: a STATUS of R55, zero between, VALUE 0 on an error. -/
def Obligations.StepKeepsTheResponseForm : Prop :=
  ∀ s t : State, s.ResponsesFormed → step s = .next t → t.ResponsesFormed
end

