-- ==== Sys2Proof/Laws/Memory.lean ====
section
/-!
SUPPORT. The buffer: what a whole-buffer write leaves at each address, that it keeps the canonical form, and that a
buffer which covers 0..N-1 reads as its list of bytes.
-/

namespace Sys2Proof.Machine

theorem Memory.read_ofBytesFrom (bytes : List Byte) (a k : Nat) :
    Memory.read (Memory.ofBytesFrom a bytes) k = if k < a then none else bytes[k - a]? := by
  induction bytes generalizing a with
  | nil => simp [Memory.ofBytesFrom, Memory.read]
  | cons b rest ih =>
    simp only [Memory.ofBytesFrom, Memory.read, ih]
    rcases Nat.lt_trichotomy a k with h | h | h
    · obtain ⟨d, rfl⟩ := Nat.exists_eq_add_of_lt h
      have hd : a + d + 1 - a = d + 1 := by omega
      have hd' : a + d + 1 - (a + 1) = d := by omega
      simp [hd, hd', show ¬a + d + 1 < a + 1 by omega, show ¬a + d + 1 < a by omega, show a ≠ a + d + 1 by omega]
    · subst h; simp
    · simp [h, show k < a + 1 by omega, show a ≠ k by omega]

theorem Memory.read_ofBytes (bytes : List Byte) (k : Nat) : Memory.read (Memory.ofBytes bytes) k = bytes[k]? := by
  simp [Memory.ofBytes, Memory.read_ofBytesFrom]

theorem Memory.ofBytesFrom_addresses (bytes : List Byte) (a : Nat) :
    (Memory.ofBytesFrom a bytes).map Prod.fst = List.range' a bytes.length := by
  induction bytes generalizing a with
  | nil => rfl
  | cons b rest ih => simp [Memory.ofBytesFrom, ih, List.range'_succ]

theorem Memory.ofBytes_addresses (bytes : List Byte) :
    (Memory.ofBytes bytes).map Prod.fst = List.range bytes.length := by
  simp [Memory.ofBytes, Memory.ofBytesFrom_addresses, List.range_eq_range']

theorem Memory.ofBytesFrom_bytes (bytes : List Byte) (a : Nat) :
    (Memory.ofBytesFrom a bytes).map Prod.snd = bytes := by
  induction bytes generalizing a with
  | nil => rfl
  | cons b rest ih => simp [Memory.ofBytesFrom, ih]

theorem Memory.ofBytes_bytes (bytes : List Byte) : (Memory.ofBytes bytes).map Prod.snd = bytes :=
  Memory.ofBytesFrom_bytes bytes 0

theorem Memory.ofBytesFrom_wf (bytes : List Byte) (a : Nat) : (Memory.ofBytesFrom a bytes).wf = true := by
  induction bytes generalizing a with
  | nil => rfl
  | cons b rest ih =>
    cases rest with
    | nil => rfl
    | cons c rest => simpa [Memory.ofBytesFrom, Memory.wf] using ih (a + 1)

/-- The one operation that writes the buffer keeps the canonical form. -/
theorem Memory.ofBytes_wf (bytes : List Byte) : (Memory.ofBytes bytes).wf = true := Memory.ofBytesFrom_wf bytes 0

theorem Memory.empty_wf : Memory.wf [] = true := rfl

/-- A buffer with consecutive addresses is the one its bytes make. -/
theorem Memory.eq_ofBytesFrom (m : Memory) (a n : Nat) (h : m.map Prod.fst = List.range' a n) :
    m = Memory.ofBytesFrom a (m.map Prod.snd) := by
  induction m generalizing a n with
  | nil => rfl
  | cons cell rest ih =>
    obtain ⟨k, b⟩ := cell
    cases n with
    | zero => simp at h
    | succ n =>
      simp only [List.map_cons, List.range'_succ, List.cons.injEq] at h
      simp only [List.map_cons, Memory.ofBytesFrom, List.cons.injEq, Prod.mk.injEq, and_true]
      exact ⟨h.1, ih (a + 1) n h.2⟩

/-- A buffer that covers 0..N-1 reads as the list of its bytes. -/
theorem Memory.read_of_covers {m : Memory} {n : Nat} (h : m.map Prod.fst = List.range n) (k : Nat) :
    Memory.read m k = (m.map Prod.snd)[k]? := by
  rw [List.range_eq_range'] at h
  have hm := Memory.eq_ofBytesFrom m 0 n h
  conv_lhs => rw [hm]
  exact Memory.read_ofBytes _ k

theorem Memory.length_of_covers {m : Memory} {n : Nat} (h : m.map Prod.fst = List.range n) : m.length = n := by
  simpa using congrArg List.length h

end Sys2Proof.Machine
end

