-- ==== Sys2Proof/Laws/Bits.lean ====
section
/-!
SUPPORT. From bits to codes: the little-endian integer's bits are the input bytes' bits, bitAt is one of them, and the
assembly loop gathers a run of them.
-/

namespace Sys2Proof.Machine

/-- Bit j of L is bit j mod 8 of input byte j div 8 (R25). -/
theorem littleEndian_testBit (bytes : List Byte) (j : Nat) :
    (littleEndian bytes).testBit j = (bytes[j / 8]?.getD 0#8).getLsbD (j % 8) := by
  induction bytes generalizing j with
  | nil => simp [littleEndian]
  | cons b rest ih =>
    rw [littleEndian, Nat.add_comm, Nat.testBit_two_pow_mul_add _ b.isLt]
    by_cases h : j < 8
    · simp [h, Nat.div_eq_of_lt h, Nat.mod_eq_of_lt h, BitVec.getLsbD]
    · obtain ⟨d, rfl⟩ := Nat.exists_eq_add_of_le (Nat.le_of_not_lt h)
      have h1 : (8 + d) / 8 = d / 8 + 1 := by omega
      simp [ih, h1]

theorem littleEndian_lt (bytes : List Byte) : littleEndian bytes < 2 ^ (bytes.length * 8) := by
  induction bytes with
  | nil => simp [littleEndian]
  | cons b rest ih =>
    have hb : b.toNat < 2 ^ 8 := b.isLt
    have hp : 2 ^ ((b :: rest).length * 8) = 2 ^ 8 * 2 ^ (rest.length * 8) := by
      rw [← pow_add]; congr 1; simp; omega
    rw [littleEndian, hp]
    nlinarith

theorem contents_length {s : State} (hc : s.buffer.map Prod.fst = List.range s.n) : s.contents.length = s.n := by
  simp [State.contents, Memory.length_of_covers hc]

/-- The logical byte j is input byte N-1-j (R21). -/
theorem read_eq_contents {s : State} (hc : s.buffer.map Prod.fst = List.range s.n) {j : Nat} (hj : j < s.n) :
    Memory.read s.buffer j = s.contents[s.n - 1 - j]? := by
  have hl := Memory.length_of_covers hc
  rw [Memory.read_of_covers hc, State.contents, List.getElem?_reverse (by simp [hl]; omega)]
  congr 1
  simp [hl]
  omega

theorem extract_bit (b : Byte) (k : Nat) : b.extractLsb' k 1 = BitVec.ofBool (b.getLsbD k) := by
  apply BitVec.eq_of_getLsbD_eq
  intro i hi
  obtain rfl : i = 0 := by omega
  simp

/-- bitAt is a bit of the input byte R24 names. -/
theorem bitAt_eq_byte {s : State} (hc : s.buffer.map Prod.fst = List.range s.n) {k : Nat} (hk : k < s.n * 8) :
    ∃ b, s.contents[s.n - 1 - k / 8]? = some b ∧ bitAt s k = some (BitVec.ofBool (b.getLsbD (7 - k % 8))) := by
  have hj : k / 8 < s.n := by omega
  have hlt : s.n - 1 - k / 8 < s.contents.length := by rw [contents_length hc]; omega
  refine ⟨s.contents[s.n - 1 - k / 8], List.getElem?_eq_getElem hlt, ?_⟩
  have hr : s.buffer.read (byteOf (k : Int).toNat) = some s.contents[s.n - 1 - k / 8] := by
    rw [byteOf, Int.toNat_natCast, read_eq_contents hc hj, List.getElem?_eq_getElem hlt]
  simp only [bitAt]
  rw [if_pos ⟨by omega, by omega⟩, hr]
  simp [extract_bit, bitPosOf]

/-- That bit is bit N*8-1-k of L (R25). -/
theorem stream_testBit {s : State} {k : Nat} (hk : k < s.n * 8) {b : Byte}
    (hb : s.contents[s.n - 1 - k / 8]? = some b) :
    s.stream.testBit (s.n * 8 - 1 - k) = b.getLsbD (7 - k % 8) := by
  have h1 : (s.n * 8 - 1 - k) / 8 = s.n - 1 - k / 8 := by omega
  have h2 : (s.n * 8 - 1 - k) % 8 = 7 - k % 8 := by omega
  rw [State.stream, littleEndian_testBit, h1, h2, hb]
  rfl

/-- bitAt(k) is bit N*8-1-k of L (R25). -/
theorem bitAt_eq_stream {s : State} (hc : s.buffer.map Prod.fst = List.range s.n) {k : Nat} (hk : k < s.n * 8) :
    bitAt s k = some (BitVec.ofBool (s.stream.testBit (s.n * 8 - 1 - k))) := by
  obtain ⟨b, hb, hbit⟩ := bitAt_eq_byte hc hk
  rw [hbit, stream_testBit hk hb]

theorem bitAt_eq_none {s : State} {i : Int} (h : i < 0 ∨ (s.n : Int) * 8 ≤ i) : bitAt s i = none := by
  simp only [bitAt]
  rw [if_neg (by omega)]

theorem shift_in (code : Nat) (bit : Bool) :
    code <<< 1 ||| (BitVec.ofBool bit).toNat = code * 2 + bit.toNat := by
  have h : bit.toNat < 2 ^ 1 := by cases bit <;> decide
  rw [BitVec.toNat_ofBool, ← Nat.shiftLeft_add_eq_or_of_lt h, Nat.shiftLeft_eq]

/-- The loop over bits of a number `l` that descend as the index ascends: after `w` of them, the bits l[m+w-1 : m] stand
below the code so far. -/
theorem assembleFrom_eq (s : State) (l m : Nat) (w : Nat) (i : Int) (code : Nat)
    (h : ∀ k, k < w → bitAt s (i + k) = some (BitVec.ofBool (l.testBit (m + (w - 1 - k))))) :
    assembleFrom s i w code = some (code * 2 ^ w + (l >>> m) % 2 ^ w) := by
  induction w generalizing i code with
  | zero => simp [assembleFrom, Nat.mod_one]
  | succ w ih =>
    have h0 : bitAt s i = some (BitVec.ofBool (l.testBit (m + w))) := by simpa using h 0 (by omega)
    have hrest : ∀ k, k < w → bitAt s (i + 1 + k) = some (BitVec.ofBool (l.testBit (m + (w - 1 - k)))) := by
      intro k hk
      have hi : i + 1 + (k : Int) = i + ((k + 1 : Nat) : Int) := by push_cast; omega
      have hm : w + 1 - 1 - (k + 1) = w - 1 - k := by omega
      rw [hi, h (k + 1) (by omega), hm]
    have hb : (l >>> m) % 2 ^ (w + 1) = (l.testBit (m + w)).toNat * 2 ^ w + (l >>> m) % 2 ^ w := by
      have hb' : (l.testBit (m + w)).toNat = (l >>> m) / 2 ^ w % 2 := by
        rw [← Nat.toNat_testBit, Nat.testBit_shiftRight]
      rw [hb', pow_succ, Nat.mod_mul, Nat.mul_comm, Nat.add_comm]
    simp only [assembleFrom, h0]
    rw [ih (i + 1) _ hrest, shift_in, hb]
    congr 1
    ring

/-- A missing bit anywhere in the range leaves the code without a value. -/
theorem assembleFrom_eq_none (s : State) (w k : Nat) (i : Int) (code : Nat) (hk : k < w)
    (h : bitAt s (i + k) = none) : assembleFrom s i w code = none := by
  induction w generalizing i code k with
  | zero => omega
  | succ w ih =>
    simp only [assembleFrom]
    split
    · rfl
    · cases k with
      | zero => simp_all
      | succ k => exact ih k (i + 1) _ (by omega) (by rw [← h]; congr 1; push_cast; ring)

/-- The code at the cursor is the next `w` bits of L (R79, R81), where those bits are there. -/
theorem assembleCode_eq {s : State} (hc : s.buffer.map Prod.fst = List.range s.n) {w : Nat}
    (hlow : (w : Int) ≤ s.cursor + 1) (hhigh : s.cursor ≤ (s.n : Int) * 8 - 1) :
    assembleCode s w = some ((s.stream >>> s.consumed.toNat) % 2 ^ w) := by
  rw [assembleCode, assembleFrom_eq s s.stream s.consumed.toNat w]
  · simp
  · intro k hk
    have hidx : s.cursor - w + 1 + k = ((s.cursor - w + 1 + k).toNat : Int) := by omega
    have hlt : (s.cursor - w + 1 + k).toNat < s.n * 8 := by omega
    have hpos : s.n * 8 - 1 - (s.cursor - w + 1 + k).toNat = s.consumed.toNat + (w - 1 - k) := by
      simp only [State.consumed]; omega
    rw [hidx, bitAt_eq_stream hc hlt, hpos]

end Sys2Proof.Machine
end

