-- ==== Sys2Proof/Laws/Responses.lean ====
section
/-!
SUPPORT. The fields of a response word (spec/30_encoding.md R54) read back as they were packed.
-/

namespace Sys2Proof.Machine

@[simp] theorem statusField_responseWord (st : Status) (v : BitVec 32) : statusField (responseWord st v) = st.code := by
  apply BitVec.eq_of_getLsbD_eq
  intro i hi
  simp only [statusField, responseWord, BitVec.getLsbD_extractLsb', BitVec.getLsbD_append]
  simp [hi, show ¬60 + i < 32 by omega, show ¬60 + i - 32 < 28 by omega, show 60 + i - 32 - 28 = i by omega]

@[simp] theorem zeroField_responseWord (st : Status) (v : BitVec 32) : zeroField (responseWord st v) = 0#28 := by
  apply BitVec.eq_of_getLsbD_eq
  intro i hi
  simp only [zeroField, responseWord, BitVec.getLsbD_extractLsb', BitVec.getLsbD_append]
  simp [hi]

@[simp] theorem valueField_responseWord (st : Status) (v : BitVec 32) : valueField (responseWord st v) = v := by
  apply BitVec.eq_of_getLsbD_eq
  intro i hi
  simp only [valueField, responseWord, BitVec.getLsbD_extractLsb', BitVec.getLsbD_append]
  simp [hi]

/-- Every response the block makes has R54's to R56's form: an OK with any VALUE, or an error with VALUE 0. -/
theorem responseForm_ok (v : BitVec 32) : responseForm (responseWord .ok v) = true := by
  simp [responseForm, Status.code]

theorem responseForm_error (st : Status) : responseForm (responseWord st 0#32) = true := by
  cases st <;> decide

end Sys2Proof.Machine
end

