-- ==== Sys2Proof/Laws/State.lean ====
section
/-!
SUPPORT. One lemma per field per update of State, for every named operation that is one record update.
-/

namespace Sys2Proof.Machine

/-! ## respond -/

@[simp] theorem respond_cfg (st : Status) (v : BitVec 32) (s : State) :
    (respond st v s).cfg = s.cfg := rfl
@[simp] theorem respond_buffer (st : Status) (v : BitVec 32) (s : State) :
    (respond st v s).buffer = s.buffer := rfl
@[simp] theorem respond_n (st : Status) (v : BitVec 32) (s : State) :
    (respond st v s).n = s.n := rfl
@[simp] theorem respond_cursor (st : Status) (v : BitVec 32) (s : State) :
    (respond st v s).cursor = s.cursor := rfl
@[simp] theorem respond_newInProgress (st : Status) (v : BitVec 32) (s : State) :
    (respond st v s).newInProgress = s.newInProgress := rfl
@[simp] theorem respond_rsp (st : Status) (v : BitVec 32) (s : State) :
    (respond st v s).rsp = some (responseWord st v) := rfl
@[simp] theorem respond_cmd (st : Status) (v : BitVec 32) (s : State) :
    (respond st v s).cmd = s.cmd := rfl
@[simp] theorem respond_din (st : Status) (v : BitVec 32) (s : State) :
    (respond st v s).din = s.din := rfl
@[simp] theorem respond_rspReady (st : Status) (v : BitVec 32) (s : State) :
    (respond st v s).rspReady = s.rspReady := rfl
@[simp] theorem respond_received (st : Status) (v : BitVec 32) (s : State) :
    (respond st v s).received = s.received := rfl
@[simp] theorem respond_resetAsserted (st : Status) (v : BitVec 32) (s : State) :
    (respond st v s).resetAsserted = s.resetAsserted := rfl

/-- An error is a response with VALUE 0 (R94); the lemmas of `respond` then apply. -/
@[simp] theorem raise_eq (st : Status) (s : State) : raise st s = respond st 0#32 s := rfl

/-! ## construct -/

@[simp] theorem construct_cfg (bs : List Byte) (s : State) :
    (construct bs s).cfg = s.cfg := rfl
@[simp] theorem construct_buffer (bs : List Byte) (s : State) :
    (construct bs s).buffer = Memory.ofBytes bs.reverse := rfl
@[simp] theorem construct_n (bs : List Byte) (s : State) :
    (construct bs s).n = bs.length := rfl
@[simp] theorem construct_cursor (bs : List Byte) (s : State) :
    (construct bs s).cursor = (bs.length : Int) * 8 - 1 := rfl
@[simp] theorem construct_newInProgress (bs : List Byte) (s : State) :
    (construct bs s).newInProgress = none := rfl
@[simp] theorem construct_rsp (bs : List Byte) (s : State) :
    (construct bs s).rsp = s.rsp := rfl
@[simp] theorem construct_cmd (bs : List Byte) (s : State) :
    (construct bs s).cmd = s.cmd := rfl
@[simp] theorem construct_din (bs : List Byte) (s : State) :
    (construct bs s).din = s.din := rfl
@[simp] theorem construct_rspReady (bs : List Byte) (s : State) :
    (construct bs s).rspReady = s.rspReady := rfl
@[simp] theorem construct_received (bs : List Byte) (s : State) :
    (construct bs s).received = s.received := rfl
@[simp] theorem construct_resetAsserted (bs : List Byte) (s : State) :
    (construct bs s).resetAsserted = s.resetAsserted := rfl

/-! ## resetSequence -/

@[simp] theorem resetSequence_cfg (s : State) :
    (resetSequence s).cfg = s.cfg := rfl
@[simp] theorem resetSequence_buffer (s : State) :
    (resetSequence s).buffer = [] := rfl
@[simp] theorem resetSequence_n (s : State) :
    (resetSequence s).n = 0 := rfl
@[simp] theorem resetSequence_cursor (s : State) :
    (resetSequence s).cursor = -1 := rfl
@[simp] theorem resetSequence_newInProgress (s : State) :
    (resetSequence s).newInProgress = none := rfl
@[simp] theorem resetSequence_rsp (s : State) :
    (resetSequence s).rsp = none := rfl
@[simp] theorem resetSequence_cmd (s : State) :
    (resetSequence s).cmd = s.cmd := rfl
@[simp] theorem resetSequence_din (s : State) :
    (resetSequence s).din = s.din := rfl
@[simp] theorem resetSequence_rspReady (s : State) :
    (resetSequence s).rspReady = s.rspReady := rfl
@[simp] theorem resetSequence_received (s : State) :
    (resetSequence s).received = s.received := rfl
@[simp] theorem resetSequence_resetAsserted (s : State) :
    (resetSequence s).resetAsserted = s.resetAsserted := rfl

/-! ## acceptCommand -/

@[simp] theorem acceptCommand_cfg (rest : List CmdWord) (s : State) :
    (acceptCommand rest s).cfg = s.cfg := rfl
@[simp] theorem acceptCommand_buffer (rest : List CmdWord) (s : State) :
    (acceptCommand rest s).buffer = s.buffer := rfl
@[simp] theorem acceptCommand_n (rest : List CmdWord) (s : State) :
    (acceptCommand rest s).n = s.n := rfl
@[simp] theorem acceptCommand_cursor (rest : List CmdWord) (s : State) :
    (acceptCommand rest s).cursor = s.cursor := rfl
@[simp] theorem acceptCommand_newInProgress (rest : List CmdWord) (s : State) :
    (acceptCommand rest s).newInProgress = s.newInProgress := rfl
@[simp] theorem acceptCommand_rsp (rest : List CmdWord) (s : State) :
    (acceptCommand rest s).rsp = s.rsp := rfl
@[simp] theorem acceptCommand_cmd (rest : List CmdWord) (s : State) :
    (acceptCommand rest s).cmd = rest := rfl
@[simp] theorem acceptCommand_din (rest : List CmdWord) (s : State) :
    (acceptCommand rest s).din = s.din := rfl
@[simp] theorem acceptCommand_rspReady (rest : List CmdWord) (s : State) :
    (acceptCommand rest s).rspReady = s.rspReady := rfl
@[simp] theorem acceptCommand_received (rest : List CmdWord) (s : State) :
    (acceptCommand rest s).received = s.received := rfl
@[simp] theorem acceptCommand_resetAsserted (rest : List CmdWord) (s : State) :
    (acceptCommand rest s).resetAsserted = s.resetAsserted := rfl

/-! ## offerNext -/

@[simp] theorem offerNext_cfg (w : CmdWord) (s : State) :
    (offerNext w s).cfg = s.cfg := rfl
@[simp] theorem offerNext_buffer (w : CmdWord) (s : State) :
    (offerNext w s).buffer = s.buffer := rfl
@[simp] theorem offerNext_n (w : CmdWord) (s : State) :
    (offerNext w s).n = s.n := rfl
@[simp] theorem offerNext_cursor (w : CmdWord) (s : State) :
    (offerNext w s).cursor = s.cursor := rfl
@[simp] theorem offerNext_newInProgress (w : CmdWord) (s : State) :
    (offerNext w s).newInProgress = none := rfl
@[simp] theorem offerNext_rsp (w : CmdWord) (s : State) :
    (offerNext w s).rsp = none := rfl
@[simp] theorem offerNext_cmd (w : CmdWord) (s : State) :
    (offerNext w s).cmd = w :: s.cmd := rfl
@[simp] theorem offerNext_din (w : CmdWord) (s : State) :
    (offerNext w s).din = s.din := rfl
@[simp] theorem offerNext_rspReady (w : CmdWord) (s : State) :
    (offerNext w s).rspReady = s.rspReady := rfl
@[simp] theorem offerNext_received (w : CmdWord) (s : State) :
    (offerNext w s).received = s.received ++ s.rsp.toList := rfl
@[simp] theorem offerNext_resetAsserted (w : CmdWord) (s : State) :
    (offerNext w s).resetAsserted = false := rfl

/-! ## handOver -/

theorem handOver_of_ready {s : State} (h : s.rspReady = true) (r : RspWord) :
    handOver r s = { s with rsp := none, received := s.received ++ [r] } := by simp [handOver, h]

theorem handOver_of_not_ready {s : State} (h : s.rspReady = false) (r : RspWord) : handOver r s = s := by
  simp [handOver, h]

/-! ## Host actions -/

@[simp] theorem hostAct_issue (w : CmdWord) (s : State) : hostAct (.issue w) s = { s with cmd := s.cmd ++ [w] } := rfl
@[simp] theorem hostAct_supply (b : Byte) (s : State) : hostAct (.supply b) s = { s with din := s.din ++ [b] } := rfl
@[simp] theorem hostAct_setRspReady (l : Bool) (s : State) : hostAct (.setRspReady l) s = { s with rspReady := l } := rfl
@[simp] theorem hostAct_assertReset (s : State) :
    hostAct (.setReset true) s = { resetSequence s with resetAsserted := true } := rfl
@[simp] theorem hostAct_releaseReset (s : State) : hostAct (.setReset false) s = { s with resetAsserted := false } := rfl

/-- No host action writes the parameters or the host's record of responses. -/
theorem hostAct_cfg (a : HostAction) (s : State) : (hostAct a s).cfg = s.cfg := by
  rcases a with w | b | l | (_ | _) <;> rfl

theorem hostAct_received (a : HostAction) (s : State) : (hostAct a s).received = s.received := by
  rcases a with w | b | l | (_ | _) <;> rfl

end Sys2Proof.Machine
end

