-- ==== Sys2Proof/Laws/Commands.lean ====
section
/-!
SUPPORT. What the payload collection and each command can do, said once; later proofs cite these instead of unfolding.
-/

namespace Sys2Proof.Machine

/-- A payload whose last bytes are all offered constructs and responds. -/
theorem collectPayload_full {job : Payload} {s : State} {missing rest : List Byte} (hd : s.din = missing ++ rest)
    (hl : job.taken.length + missing.length = job.count) :
    collectPayload job s =
      { s with
        buffer := Memory.ofBytes (job.taken ++ missing).reverse
        n := job.count
        cursor := (job.count : Int) * 8 - 1
        newInProgress := none
        din := rest
        rsp := some (responseWord .ok 0#32) } := by
  have hk : job.count - job.taken.length = missing.length := by omega
  have hl' : (job.taken ++ missing).length = job.count := by simpa using hl
  simp only [collectPayload, hk, hd, List.take_left, List.drop_left, hl', if_true, respond, construct]

/-- A payload that still lacks a byte stays in progress, with what was offered taken. -/
theorem collectPayload_short {job : Payload} {s : State} (hl : job.taken.length + s.din.length < job.count) :
    collectPayload job s =
      { s with newInProgress := some { count := job.count, taken := job.taken ++ s.din }, din := [] } := by
  have hle : s.din.length ≤ job.count - job.taken.length := by omega
  have hne : ¬(job.taken ++ s.din).length = job.count := by simp; omega
  simp only [collectPayload, List.take_of_length_le hle, List.drop_of_length_le hle, if_neg hne]

/-- One of the two, for a job that lacks no more than its count. -/
theorem collectPayload_cases (job : Payload) (s : State) (hj : job.taken.length ≤ job.count) :
    (∃ missing rest, s.din = missing ++ rest ∧ job.taken.length + missing.length = job.count) ∨
      job.taken.length + s.din.length < job.count := by
  rcases Nat.lt_or_ge (job.taken.length + s.din.length) job.count with h | h
  · exact .inr h
  · exact .inl ⟨s.din.take (job.count - job.taken.length), s.din.drop (job.count - job.taken.length),
      (List.take_append_drop _ _).symm, by simp; omega⟩

/-- Whatever the job, collecting its payload touches neither the parameters nor the host's other ports. -/
theorem collectPayload_frame (job : Payload) (s : State) :
    (collectPayload job s).cfg = s.cfg ∧ (collectPayload job s).cmd = s.cmd ∧
      (collectPayload job s).rspReady = s.rspReady ∧ (collectPayload job s).received = s.received ∧
      (collectPayload job s).resetAsserted = s.resetAsserted ∧
      (collectPayload job s).din = s.din.drop (job.count - job.taken.length) := by
  simp only [collectPayload]
  split <;> simp

/-- NEW's three outcomes: refused for capacity, completed, or in progress. -/
theorem execNew_cases {count : Nat} {s t : State} (h : execNew count s = .next t) :
    (s.cfg.maxBytes < count ∧ t = raise .capacityExceeded s) ∨
    (count ≤ s.cfg.maxBytes ∧ t = collectPayload { count := count, taken := [] } s) := by
  unfold execNew at h
  split at h
  · exact .inl ⟨‹_›, by simpa using h.symm⟩
  · exact .inr ⟨by omega, by simpa using h.symm⟩

/-- READ's outcomes, in R100's order. -/
theorem execRead_cases {width : Int} {s t : State} (h : execRead width s = .next t) :
    ((width < 0 ∨ (s.cfg.maxWidth : Int) < width) ∧ t = raise .invalidWidth s) ∨
    (width = 0 ∧ t = respond .ok 0#32 s) ∨
    (1 ≤ width ∧ width ≤ s.cfg.maxWidth ∧ s.cursor - width + 1 < 0 ∧ t = raise .exhausted s) ∨
    (1 ≤ width ∧ width ≤ s.cfg.maxWidth ∧ 0 ≤ s.cursor - width + 1 ∧
      ∃ code, assembleCode s width.toNat = some code ∧
        t = respond .ok (BitVec.ofNat 32 code) { s with cursor := s.cursor - width }) := by
  unfold execRead at h
  split at h
  · exact .inl ⟨‹_›, by simpa using h.symm⟩
  · split at h
    · exact .inr (.inl ⟨‹_›, by simpa using h.symm⟩)
    · split at h
      · exact .inr (.inr (.inl ⟨by omega, by omega, ‹_›, by simpa using h.symm⟩))
      · split at h
        · simp at h
        · exact .inr (.inr (.inr ⟨by omega, by omega, by omega, _, ‹_›, by simpa using h.symm⟩))

theorem execRead_invalid {width : Int} {s : State} (h : width < 0 ∨ (s.cfg.maxWidth : Int) < width) :
    execRead width s = .next (raise .invalidWidth s) := by
  unfold execRead
  rw [if_pos h]

theorem execRead_exhausted {width : Int} {s : State} (h1 : 1 ≤ width) (hm : width ≤ s.cfg.maxWidth)
    (hx : s.cursor - width + 1 < 0) : execRead width s = .next (raise .exhausted s) := by
  unfold execRead
  rw [if_neg (by omega), if_neg (by omega), if_pos hx]

/-- A READ whose code is there answers it and moves the cursor (R75, R80). -/
theorem execRead_code {w : Nat} {s : State} {code : Nat} (h1 : 1 ≤ w) (hm : w ≤ s.cfg.maxWidth)
    (hx : (w : Int) ≤ s.cursor + 1) (hcode : assembleCode s w = some code) :
    execRead w s = .next (respond .ok (BitVec.ofNat 32 code) { s with cursor := s.cursor - w }) := by
  unfold execRead
  rw [if_neg (by omega), if_neg (by omega), if_neg (by omega), Int.toNat_natCast, hcode]

/-- BITAT's outcomes (R88, R89): the state but for the response is kept. -/
theorem execBitat_cases {index : Nat} {s t : State} (h : execBitat index s = .next t) :
    (s.n * 8 ≤ index ∧ t = raise .indexOutOfRange s) ∨
    (index < s.n * 8 ∧ ∃ bit, bitAt s index = some bit ∧ t = respond .ok (bit.setWidth 32) s) := by
  unfold execBitat at h
  split at h
  · exact .inl ⟨‹_›, by simpa using h.symm⟩
  · split at h
    · simp at h
    · exact .inr ⟨by omega, _, ‹_›, by simpa using h.symm⟩

/-- bitAt reads the buffer and N alone (R90). -/
theorem bitAt_congr {s t : State} (hb : t.buffer = s.buffer) (hn : t.n = s.n) (i : Int) : bitAt t i = bitAt s i := by
  simp [bitAt, hb, hn]

theorem assembleFrom_congr {s t : State} (hb : t.buffer = s.buffer) (hn : t.n = s.n) (i : Int) (w code : Nat) :
    assembleFrom t i w code = assembleFrom s i w code := by
  induction w generalizing i code with
  | zero => rfl
  | succ w ih => simp only [assembleFrom, bitAt_congr hb hn, ih]

/-- A command that is no NEW keeps all but the cursor and the response, and never raises the cursor. -/
theorem exec_notNew {i : Instr} {s t : State} (hi : isNew i = false) (h : exec i s = .next t) :
    ∃ cursor rsp, t = { s with cursor := cursor, rsp := some rsp } ∧ cursor ≤ s.cursor := by
  cases i with
  | new count => simp [isNew] at hi
  | read width =>
    rcases execRead_cases h with ⟨-, rfl⟩ | ⟨-, rfl⟩ | ⟨-, -, -, rfl⟩ | ⟨h1, -, -, code, -, rfl⟩
    · exact ⟨s.cursor, _, rfl, le_refl _⟩
    · exact ⟨s.cursor, _, rfl, le_refl _⟩
    · exact ⟨s.cursor, _, rfl, le_refl _⟩
    · exact ⟨s.cursor - width, _, rfl, by omega⟩
  | bitat index =>
    rcases execBitat_cases h with ⟨-, rfl⟩ | ⟨-, bit, -, rfl⟩
    · exact ⟨s.cursor, _, rfl, le_refl _⟩
    · exact ⟨s.cursor, _, rfl, le_refl _⟩

/-- Commands that are no NEW, one after another, keep all but the cursor and the response, and never raise the
cursor. -/
theorem execAll_notNew {between : List Instr} {s t : State} (hi : between.all (fun i => !isNew i) = true)
    (h : execAll between s = .next t) :
    ∃ cursor rsp, t = { s with cursor := cursor, rsp := rsp } ∧ cursor ≤ s.cursor := by
  induction between generalizing s with
  | nil =>
    obtain rfl : s = t := by simpa [execAll] using h
    exact ⟨s.cursor, s.rsp, rfl, le_refl _⟩
  | cons i rest ih =>
    simp only [List.all_cons, Bool.and_eq_true, Bool.not_eq_true'] at hi
    simp only [execAll] at h
    split at h
    · next u hu =>
      obtain ⟨c, r, rfl, hc⟩ := exec_notNew hi.1 hu
      obtain ⟨c', r', rfl, hc'⟩ := ih (by simpa using hi.2) h
      exact ⟨c', r', rfl, le_trans hc' hc⟩
    · simp at h
    · simp at h

end Sys2Proof.Machine
end

