-- ==== Sys2Proof/Laws/Environment.lean ====
section
/-!
SUPPORT. What one event does to a history of one block and to several blocks.
-/

namespace Sys2Proof.Machine

@[simp] theorem runEvents_nil (s : State) : runEvents [] s = .next s := rfl

theorem runEvents_cons_of_next {e : Event} {s t : State} (h : applyEvent e s = .next t) (rest : List Event) :
    runEvents (e :: rest) s = runEvents rest t := by
  rw [runEvents, h]

theorem runEvents_cons_of_fault {e : Event} {s : State} {r : Fault} (h : applyEvent e s = .fault r)
    (rest : List Event) : runEvents (e :: rest) s = .fault r := by
  rw [runEvents, h]

theorem runEvents_cons_of_refused {e : Event} {s : State} {r : Refusal} (h : applyEvent e s = .refused r)
    (rest : List Event) : runEvents (e :: rest) s = .refused r := by
  rw [runEvents, h]

@[simp] theorem eventAt_next (e : Event) (s : State) : eventAt e (.next s) = applyEvent e s := rfl
@[simp] theorem eventAt_fault (e : Event) (r : Fault) : eventAt e (.fault r) = .fault r := rfl
@[simp] theorem eventAt_refused (e : Event) (r : Refusal) : eventAt e (.refused r) = .refused r := rfl

/-- A history of one block from an outcome is the fold of its events. -/
theorem foldl_eventAt_next (events : List Event) (s : State) :
    events.foldl (fun o e => eventAt e o) (.next s) = runEvents events s := by
  induction events generalizing s with
  | nil => rfl
  | cons e rest ih =>
    have stays : ∀ o : Host.Outcome State Fault Refusal, (∀ e', eventAt e' o = o) →
        rest.foldl (fun o e => eventAt e o) o = o := by
      intro o ho
      clear ih
      induction rest with
      | nil => rfl
      | cons e' rest' ih' => rw [List.foldl_cons, ho, ih']
    rw [List.foldl_cons, eventAt_next]
    cases h : applyEvent e s with
    | next t => rw [runEvents_cons_of_next h, ih]
    | fault r => rw [runEvents_cons_of_fault h, stays _ fun _ => rfl]
    | refused r => rw [runEvents_cons_of_refused h, stays _ fun _ => rfl]

/-- Everything an event at block `k` does to several blocks. -/
theorem Instances.getElem?_applyAt (m : Instances) (k j : Nat) (e : Event) :
    (m.applyAt k e)[j]? = if k = j then m[j]?.map (eventAt e) else m[j]? := by
  rw [Instances.applyAt, List.getElem?_modify]
  split <;> cases m[j]? <;> rfl

@[simp] theorem Instances.length_applyAt (m : Instances) (k : Nat) (e : Event) :
    (m.applyAt k e).length = m.length := List.length_modify ..

@[simp] theorem ownEvents_nil (k : Nat) : ownEvents k [] = [] := rfl

theorem ownEvents_cons (k j : Nat) (e : Event) (rest : List (Nat × Event)) :
    ownEvents k ((j, e) :: rest) = if j = k then e :: ownEvents k rest else ownEvents k rest := by
  by_cases h : j = k <;> simp [ownEvents, h]

end Sys2Proof.Machine
end

