-- ==== Sys2Proof/Laws/Step.lean ====
section
/-!
SUPPORT. Everything a step of the block can do, said once.
-/

namespace Sys2Proof.Machine

theorem phase_of_reset {s : State} (h : s.resetAsserted = true) : phase s = .inReset := by simp [phase, h]

theorem phase_of_response {s : State} (h : s.resetAsserted = false) {r : RspWord} (hr : s.rsp = some r) :
    phase s = .responding r := by simp [phase, h, hr]

theorem phase_of_new {s : State} (h : s.resetAsserted = false) (hr : s.rsp = none) {job : Payload}
    (hj : s.newInProgress = some job) : phase s = .collecting job := by simp [phase, h, hr, hj]

theorem phase_of_free {s : State} (h : s.Free) {w : CmdWord} {rest : List CmdWord} (hc : s.cmd = w :: rest) :
    phase s = .accepting w rest := by simp [phase, h.released, h.noResponse, h.noNew, hc]

theorem step_of_reset {s : State} (h : s.resetAsserted = true) : step s = .next (resetSequence s) := by
  rw [step, phase_of_reset h]

theorem step_of_response {s : State} (h : s.resetAsserted = false) {r : RspWord} (hr : s.rsp = some r) :
    step s = .next (handOver r s) := by
  rw [step, phase_of_response h hr]

theorem step_of_new {s : State} (h : s.resetAsserted = false) (hr : s.rsp = none) {job : Payload}
    (hj : s.newInProgress = some job) : step s = .next (collectPayload job s) := by
  rw [step, phase_of_new h hr hj]

/-- What a step's next state can be. -/
theorem step_cases {s t : State} (h : step s = .next t) :
    (s.resetAsserted = true ∧ t = resetSequence s) ∨
    (s.resetAsserted = false ∧ ∃ r, s.rsp = some r ∧ t = handOver r s) ∨
    (s.resetAsserted = false ∧ s.rsp = none ∧ ∃ job, s.newInProgress = some job ∧ t = collectPayload job s) ∨
    (s.Free ∧ s.cmd = [] ∧ t = s) ∨
    (s.Free ∧ ∃ w rest, s.cmd = w :: rest ∧
      ((∃ i, decode w = .command i ∧ exec i (acceptCommand rest s) = .next t) ∨
       (∃ why, decode w = .illegal why ∧ t = raise .illegalCommand (acceptCommand rest s)))) := by
  cases hr : s.resetAsserted with
  | true =>
    rw [step, phase_of_reset hr] at h
    exact .inl ⟨rfl, by simpa using h.symm⟩
  | false =>
    cases hp : s.rsp with
    | some r =>
      rw [step, phase_of_response hr hp] at h
      exact .inr (.inl ⟨rfl, r, rfl, by simpa using h.symm⟩)
    | none =>
      cases hj : s.newInProgress with
      | some job =>
        rw [step, phase_of_new hr hp hj] at h
        exact .inr (.inr (.inl ⟨rfl, rfl, job, rfl, by simpa using h.symm⟩))
      | none =>
        cases hc : s.cmd with
        | nil =>
          have hph : phase s = .idle := by simp [phase, hr, hp, hj, hc]
          rw [step, hph] at h
          exact .inr (.inr (.inr (.inl ⟨⟨hr, hp, hj⟩, rfl, by simpa using h.symm⟩)))
        | cons w rest =>
          have hf : s.Free := ⟨hr, hp, hj⟩
          rw [step, phase_of_free hf hc] at h
          refine .inr (.inr (.inr (.inr ⟨hf, w, rest, rfl, ?_⟩)))
          cases hd : decode w with
          | command i => exact .inl ⟨i, rfl, by simpa [hd] using h⟩
          | illegal why => exact .inr ⟨why, rfl, by simpa [hd] using h.symm⟩

/-! ## Runs -/

theorem runSteps_of_next {s t : State} (h : step s = .next t) (k : Nat) : runSteps (k + 1) s = runSteps k t := by
  rw [runSteps, h]

theorem runSteps_of_fault {s : State} {r : Fault} (h : step s = .fault r) (k : Nat) :
    runSteps (k + 1) s = .fault r := by
  rw [runSteps, h]

theorem runSteps_of_refused {s : State} {r : Refusal} (h : step s = .refused r) (k : Nat) :
    runSteps (k + 1) s = .refused r := by
  rw [runSteps, h]

/-- One step of any machine's run, by the outcome of the step. -/
theorem run_succ (M : Host.Core) (k : Nat) (s : M.State) :
    M.run (k + 1) s =
      match M.step s with
      | .next t => M.run k t
      | .fault r => .fault r
      | .refused r => .refused r := rfl

/-- The host interface's run is the same run. -/
theorem core_run_eq (k : Nat) (s : State) : Host.Core.run core k s = runSteps k s := by
  induction k generalizing s with
  | zero => rfl
  | succ k ih =>
    refine (run_succ core k s).trans ?_
    cases h : step s with
    | next t =>
      have h' : core.step s = .next t := h
      rw [h', runSteps_of_next h]
      exact ih t
    | fault r =>
      have h' : core.step s = .fault r := h
      rw [h', runSteps_of_fault h]
      exact rfl
    | refused r =>
      have h' : core.step s = .refused r := h
      rw [h', runSteps_of_refused h]
      exact rfl

end Sys2Proof.Machine
end

