-- ==== Sys2Proof/Laws/Invariant.lean ====
section
/-!
SUPPORT. The reader's invariant through the shared operations.
-/

namespace Sys2Proof.Machine

/-- The invariant speaks of the parameters, the buffer, N and the cursor alone. -/
theorem State.ReaderInv.congr {s t : State} (h : s.ReaderInv) (hcfg : t.cfg = s.cfg) (hb : t.buffer = s.buffer)
    (hn : t.n = s.n) (hc : t.cursor = s.cursor) : t.ReaderInv := by
  refine ⟨?_, ?_, ?_, ?_, ?_, ?_⟩
  · rw [hcfg]; exact h.legal
  · rw [hb]; exact h.wf
  · rw [hb, hn]; exact h.covers
  · rw [hn, hcfg]; exact h.fits
  · rw [hc]; exact h.cursorLow
  · rw [hc, hn]; exact h.cursorHigh

/-- A cursor that falls no lower than -1 keeps it (R28). -/
theorem State.ReaderInv.lowerCursor {s : State} (h : s.ReaderInv) {c : Int} (hlow : -1 ≤ c) (hle : c ≤ s.cursor) :
    State.ReaderInv { s with cursor := c } :=
  ⟨h.legal, h.wf, h.covers, h.fits, hlow, by have := h.cursorHigh; simp only []; omega⟩

theorem State.ReaderInv.respond {s : State} (h : s.ReaderInv) (st : Status) (v : BitVec 32) :
    (respond st v s).ReaderInv := h.congr rfl rfl rfl rfl

/-- A completed NEW establishes it, whatever reader was there before (R28, R73). -/
theorem construct_readerInv {s : State} {contents : List Byte} (hl : s.cfg.Legal)
    (hm : contents.length ≤ s.cfg.maxBytes) : (construct contents s).ReaderInv where
  legal := hl
  wf := Memory.ofBytes_wf _
  covers := by simp [Memory.ofBytes_addresses]
  fits := hm
  cursorLow := by simp only [construct_cursor]; omega
  cursorHigh := by simp only [construct_cursor, construct_n]; omega

theorem construct_contents (s : State) (contents : List Byte) : (construct contents s).contents = contents := by
  simp [State.contents, Memory.ofBytes_bytes]

/-- Collecting a payload either leaves the reader alone or constructs over a payload of the NEW's length. -/
theorem collectPayload_readerInv {s : State} {job : Payload} (h : s.ReaderInv) (hm : job.count ≤ s.cfg.maxBytes) :
    (collectPayload job s).ReaderInv := by
  simp only [collectPayload]
  split
  · next hlen =>
    exact (construct_readerInv (s := { s with din := s.din.drop (job.count - job.taken.length) }) h.legal
      (by rw [hlen]; exact hm)).respond _ _
  · exact h.congr rfl rfl rfl rfl

/-- The empty reader of the reset sequence (R34). -/
theorem resetSequence_readerInv {s : State} (hl : s.cfg.Legal) : (resetSequence s).ReaderInv :=
  ⟨hl, rfl, rfl, Nat.zero_le _, by simp, by simp⟩

theorem exec_readerInv {i : Instr} {s t : State} (h : s.ReaderInv) (he : exec i s = .next t) : t.ReaderInv := by
  cases i with
  | new count =>
    rcases execNew_cases he with ⟨-, rfl⟩ | ⟨hm, rfl⟩
    · exact h.respond _ _
    · exact collectPayload_readerInv h hm
  | read width =>
    rcases execRead_cases he with ⟨-, rfl⟩ | ⟨-, rfl⟩ | ⟨-, -, -, rfl⟩ | ⟨h1, -, hx, code, -, rfl⟩
    · exact h.respond _ _
    · exact h.respond _ _
    · exact h.respond _ _
    · exact (h.lowerCursor (by omega) (by omega)).respond _ _
  | bitat index =>
    rcases execBitat_cases he with ⟨-, rfl⟩ | ⟨-, bit, -, rfl⟩
    · exact h.respond _ _
    · exact h.respond _ _

/-- In a state that meets it every command answers a next state. -/
theorem exec_next {s : State} (h : s.ReaderInv) (i : Instr) : ∃ t, exec i s = .next t := by
  cases i with
  | new count =>
    simp only [exec, execNew]
    split <;> exact ⟨_, rfl⟩
  | read width =>
    simp only [exec, execRead]
    split
    · exact ⟨_, rfl⟩
    · split
      · exact ⟨_, rfl⟩
      · split
        · exact ⟨_, rfl⟩
        · rw [assembleCode_eq h.covers (by omega) h.cursorHigh]
          exact ⟨_, rfl⟩
  | bitat index =>
    simp only [exec, execBitat]
    split
    · exact ⟨_, rfl⟩
    · rw [bitAt_eq_stream h.covers (by omega)]
      exact ⟨_, rfl⟩

end Sys2Proof.Machine
end

