-- ==== Sys2Proof/Laws/PerInstr.lean ====
section
/-!
SUPPORT. Per command, as syntax: the fields of its word (spec/30_encoding.md R51, R52).
-/

namespace Sys2Proof

theorem opField_packCommand (op : BitVec 4) (arg : BitVec 32) : opField (packCommand op arg) = op := by
  apply BitVec.eq_of_getLsbD_eq
  intro i hi
  simp only [opField, packCommand, BitVec.getLsbD_extractLsb', BitVec.getLsbD_append]
  simp [hi, show ¬60 + i < 32 by omega, show ¬60 + i - 32 < 28 by omega, show 60 + i - 32 - 28 = i by omega]

theorem rsvField_packCommand (op : BitVec 4) (arg : BitVec 32) : rsvField (packCommand op arg) = 0#28 := by
  apply BitVec.eq_of_getLsbD_eq
  intro i hi
  simp only [rsvField, packCommand, BitVec.getLsbD_extractLsb', BitVec.getLsbD_append]
  simp [hi]

theorem argField_packCommand (op : BitVec 4) (arg : BitVec 32) : argField (packCommand op arg) = arg := by
  apply BitVec.eq_of_getLsbD_eq
  intro i hi
  simp only [argField, packCommand, BitVec.getLsbD_extractLsb', BitVec.getLsbD_append]
  simp [hi]

/-- A word with RSV zero is its two live fields packed. -/
theorem packCommand_fields {w : CmdWord} (h : rsvField w = 0#28) : packCommand (opField w) (argField w) = w := by
  have hz : ∀ i, i < 28 → w.getLsbD (32 + i) = false := by
    intro i hi
    have := congrArg (fun v : BitVec 28 => v.getLsbD i) h
    simpa [rsvField, hi] using this
  apply BitVec.eq_of_getLsbD_eq
  intro i hi
  simp only [packCommand, BitVec.getLsbD_append, opField, argField, BitVec.getLsbD_extractLsb']
  by_cases h1 : i < 32
  · simp [h1]
  · by_cases h2 : i - 32 < 28
    · simp [h1, h2]
      have := hz (i - 32) h2
      rw [show 32 + (i - 32) = i by omega] at this
      exact this
    · simp [h1, h2, show i - 32 - 28 < 4 by omega]
      congr 1
      omega

namespace Laws.EncodeShape

/-- The word of a command has RSV zero and an OP of R52's table that no reserved number shares. -/
def Statement (i : Instr) : Prop :=
  rsvField (encode i) = 0#28 ∧ (opField (encode i) = 0x1#4 ∨ opField (encode i) = 0x2#4 ∨ opField (encode i) = 0x3#4)

theorem new (count : Nat) : Statement (.new count) :=
  ⟨rsvField_packCommand _ _, .inl (opField_packCommand _ _)⟩

theorem read (width : Int) : Statement (.read width) :=
  ⟨rsvField_packCommand _ _, .inr (.inl (opField_packCommand _ _))⟩

theorem bitat (index : Nat) : Statement (.bitat index) :=
  ⟨rsvField_packCommand _ _, .inr (.inr (opField_packCommand _ _))⟩

end Laws.EncodeShape

end Sys2Proof
end

