-- ==== Sys2Proof/Tests/Slice0.lean ====
section
/-!
SUPPORT. The model's own tests. Expected values are the spec's: spec/95_test_vectors.md (the vector is named in each
comment) and the encodings of spec/30_encoding.md R51, R52, R64. Then one witness for the hypotheses of each obligation.
-/

namespace Sys2Proof.Tests

open Sys2Proof Sys2Proof.Machine

/-! ## Helpers -/

/-- A reader over `bytes` (input order) with the given cursor, otherwise as at reset. -/
def reader (bytes : List Byte) (cursor : Int) : State :=
  { State.reset with buffer := Memory.ofBytes bytes.reverse, n := bytes.length, cursor := cursor }

/-- The response and the cursor after one outcome. -/
def answer : Host.Outcome State Fault Refusal → Option (Option RspWord × Int)
  | .next t => some (t.rsp, t.cursor)
  | .fault _ => none
  | .refused _ => none

/-- The reader after an outcome: logical bytes, N, cursor, and what DIN still offers. -/
def readerOf : Host.Outcome State Fault Refusal → Option (Memory × Nat × Int × List Byte)
  | .next t => some (t.buffer, t.n, t.cursor, t.din)
  | .fault _ => none
  | .refused _ => none

/-! ## WellFormed: each check refuses an operand that ARG cannot hold, and admits the last one it can -/

theorem test_wf_new_refused : (Instr.new (2 ^ 32)).wellFormed = false := by decide
theorem test_wf_read_high_refused : (Instr.read (2 ^ 31)).wellFormed = false := by decide
theorem test_wf_read_low_refused : (Instr.read (-(2 ^ 31) - 1)).wellFormed = false := by decide
theorem test_wf_bitat_refused : (Instr.bitat (2 ^ 32)).wellFormed = false := by decide
theorem test_wf_new_admitted : (Instr.new (2 ^ 32 - 1)).wellFormed = true := by decide
theorem test_wf_read_admitted :
    (Instr.read (2 ^ 31 - 1)).wellFormed = true ∧ (Instr.read (-(2 ^ 31))).wellFormed = true := by decide
theorem test_wf_bitat_admitted : (Instr.bitat (2 ^ 32 - 1)).wellFormed = true := by decide

/-! ## Decoding words written out bit by bit from R51's pattern `oooo` + 28 zeros + ARG -/

theorem test_decode_new_word :
    decode 0b0001000000000000000000000000000000000000000000000000000000000010#64 = .command (.new 2) := by decide

theorem test_decode_read_word :
    decode 0b0010000000000000000000000000000011111111111111111111111111111101#64 = .command (.read (-3)) := by decide

theorem test_decode_bitat_word :
    decode 0b0011000000000000000000000000000011111111111111111111111111111111#64 = .command (.bitat 4294967295) := by
  decide

/-- V-D1 to V-D5. -/
theorem test_decode_illegal_words :
    decode 0x0000000000000000#64 = .illegal .reservedOp ∧ decode 0x4000000000000004#64 = .illegal .reservedOp ∧
      decode 0xF000000000000000#64 = .illegal .reservedOp ∧ decode 0x2000000100000004#64 = .illegal .reservedBits ∧
      decode 0x2800000000000004#64 = .illegal .reservedBits := by decide

/-- The most negative and the greatest width (V-R13, V-R14). -/
theorem test_decode_extreme_widths :
    decode 0x2000000080000000#64 = .command (.read (-2147483648)) ∧
      decode 0x200000007FFFFFFF#64 = .command (.read 2147483647) := by decide

theorem test_table_words :
    decodeTableWord 64 0x1000000000000003 = some (.new 3) ∧ decodeTableWord 64 0x2000000000000003 = some (.read 3) ∧
      decodeTableWord 64 0x3000000000000003 = some (.bitat 3) ∧ decodeTableWord 64 0x5000000000000000 = none := by decide

/-! ## The first command after reset -/

/-- V-X1. -/
theorem test_first_read : answer (step (State.reset.withFetchWord 64 0x2000000000000004)) =
    some (some 0x1000000000000000#64, -1) := by decide

/-- V-N1. -/
theorem test_first_new : answer (step (State.reset.withFetchWord 64 0x1000000000000000)) =
    some (some 0x0000000000000000#64, -1) := by decide

/-- P4's last line: the all-zero word. -/
theorem test_first_illegal : answer (step (State.reset.withFetchWord 64 0)) =
    some (some 0x4000000000000000#64, -1) := by decide

/-- V-X3: a NEW with one of two bytes, then reset: the byte is lost and the reader is empty. -/
theorem test_reset_loses_partial_payload :
    (hostAct (.setReset true) { State.reset with
      newInProgress := some { count := 2, taken := [0x12#8] } }).newInProgress = none := by decide

/-- R103 and R97: a reset of one block leaves the other's cursor, and does not clear a fault. -/
theorem test_instances_are_apart :
    (Instances.run [(0, .host (.setReset true)), (1, .host (.setReset true))]
        [.fault .indexOutOfRange, .next (reader [0x12#8] 3), .next (reader [0x12#8] 3)]).map answer =
      [none, some (none, -1), some (none, 3)] := by decide

/-! ## NEW -/

/-- V-N4: a partly read reader is replaced; the bytes are reversed and DIN's fourth byte is left. -/
theorem test_new_replaces_the_reader :
    readerOf (exec (.new 3) { reader [0x12#8, 0x34#8] 3 with din := [0x01#8, 0x02#8, 0x03#8, 0x04#8] }) =
      some ([(0, 0x03#8), (1, 0x02#8), (2, 0x01#8)], 3, 23, [0x04#8]) := by decide

/-- V-N5: N above MAX_BYTES = 4. -/
theorem test_new_beyond_capacity :
    answer (exec (.new 5) { reader [0x12#8, 0x34#8] 3 with cfg := { maxWidth := 32, maxBytes := 4 } }) =
      some (some 0x5000000000000000#64, 3) := by decide

/-! ## READ -/

/-- V-R9's second code: READ 7 across the byte boundary from cursor 10. -/
theorem test_read_across_bytes :
    answer (exec (.read 7) (reader [0x12#8, 0x34#8] 10)) = some (some 0x0000000000000020#64, 3) := by decide

/-- V-R19's first code: a full 32-bit code is not sign-extended. -/
theorem test_read_full_width :
    answer (exec (.read 32) (reader [0xFF#8, 0xFF#8, 0xFF#8, 0xFF#8, 0xFF#8] 39)) =
      some (some 0x00000000FFFFFFFF#64, 7) := by decide

/-! ## BITAT -/

/-- V-B3's index 0: the MSB of the last input byte. -/
theorem test_bitat_first_index :
    answer (exec (.bitat 0) (reader [0x01#8, 0x80#8] 15)) = some (some 0x0000000000000001#64, 15) := by decide

/-- V-B6: BITAT ignores a drained cursor. -/
theorem test_bitat_ignores_the_cursor :
    answer (exec (.bitat 14) (reader [0x12#8, 0x34#8] (-1))) = some (some 0x0000000000000001#64, -1) := by decide

/-! ## Assembly text (R62) -/

theorem test_line_new : readLine ['N', 'E', 'W', ' ', '0', 'x', '1', '2', ',', ' ', '5', '2', ' ', ';', 'p'] =
    some (.new [0x12#8, 0x34#8]) := by decide

theorem test_line_read : readLine ['R', 'E', 'A', 'D', ' ', '-', '1'] = some (.read (-1)) := by decide

theorem test_line_word :
    readLine ['.', 'w', 'o', 'r', 'd', ' ', '0', 'x', '2', '0', '0', '0', '0', '0', '0', '1', '0', '0', '0', '0', '0',
      '0', '0', '4'] = some (.word 0x2000000100000004#64) := by decide

theorem test_line_byte_too_large : readLine ['N', 'E', 'W', ' ', '2', '5', '6'] = none := by decide

theorem test_line_read_hex : readLine ['R', 'E', 'A', 'D', ' ', '0', 'x', '2', '0'] = some (.read 32) := by decide

/-! ## Witnesses: for each obligation with hypotheses, states and operands that meet them -/

/-- After `NEW 0x12, 0x34` and `READ 4`: cursor 11, twelve bits left. -/
def sample : State := reader [0x12#8, 0x34#8] 11

theorem sample_readerInv : sample.ReaderInv where
  legal := by decide
  wf := by decide
  covers := by decide
  fits := by decide
  cursorLow := by decide
  cursorHigh := by decide

theorem sample_inv : sample.Inv where
  reader := sample_readerInv
  lacks := by decide
  oneAtATime := by decide

theorem sample_free : sample.Free := ⟨rfl, rfl, rfl⟩

/-- The sample with READ 4, BITAT 15 and an illegal word on CMD, and a host that takes responses. -/
def busy : State :=
  { sample with cmd := [0x2000000000000004#64, 0x300000000000000F#64, 0x4000000000000000#64] }

theorem busy_inv : busy.Inv := ⟨sample_readerInv.congr rfl rfl rfl rfl, by decide, by decide⟩

theorem busy_free : busy.Free := ⟨rfl, rfl, rfl⟩

/-- A NEW of three bytes that has taken one, with one more on offer. -/
def waiting : State := { sample with newInProgress := some { count := 3, taken := [0xA5#8] }, din := [0x01#8] }

/-- The sample with NEW of one byte and READ 4 on CMD, and two bytes on DIN. -/
def offered : State :=
  { sample with cmd := [0x1000000000000001#64, 0x2000000000000004#64], din := [0x01#8, 0x02#8] }

theorem waiting_inv : waiting.Inv := ⟨sample_readerInv.congr rfl rfl rfl rfl, by decide, by decide⟩

theorem witness_ResetSequenceLeavesTheEmptyReader :
    ({ waiting with resetAsserted := true, cmd := busy.cmd } : State).resetAsserted = true ∧
      ({ waiting with resetAsserted := true, cmd := busy.cmd } : State).cmd = 0x2000000000000004#64 :: busy.cmd.tail ∧
      decode 0x2000000000000004#64 = .command (.read 4) := by decide

/-- The clauses at their boundaries: width 0, widths 1 and MAX_WIDTH, the widths outside. -/
theorem witness_UntilTheFirstNewTheReaderIsEmpty :
    [Instr.read 5, .bitat 0].all (fun i => !isNew i) = true ∧
      (∃ u, execAll [.read 5, .bitat 0] { State.reset with cfg := { maxWidth := 12, maxBytes := 4 } } = .next u) ∧
      (1 : Int) ≤ 12 ∧ ((12 : Nat) : Int) < 13 ∧ (-1 : Int) < 0 := by
  exact ⟨by decide, ⟨_, rfl⟩, by decide, by decide, by decide⟩

/-- One word for each clause: the three OPs, a reserved bit at either end, the reserved OPs at their ends. -/
theorem witness_DecodingFollowsTheFields :
    (0x1000000000000002#64).extractLsb' 32 28 = 0#28 ∧ (0x1000000000000002#64).extractLsb' 60 4 = 0x1#4 ∧
      (0x20000000FFFFFFFF#64).extractLsb' 60 4 = 0x2#4 ∧ (0x3000000000000007#64).extractLsb' 60 4 = 0x3#4 ∧
      (0x1000000100000000#64).extractLsb' 32 28 ≠ 0#28 ∧ (0x1800000000000000#64).extractLsb' 32 28 ≠ 0#28 ∧
      (0x0000000000000000#64).extractLsb' 60 4 = 0x0#4 ∧ 0x4#4 ≤ (0x4000000000000000#64).extractLsb' 60 4 ∧
      0x4#4 ≤ (0xF000000000000000#64).extractLsb' 60 4 := by decide

theorem witness_DecodeOfEncode :
    (Instr.new (2 ^ 32 - 1)).wellFormed = true ∧ (Instr.read (-(2 ^ 31))).wellFormed = true ∧
      (Instr.bitat 0).wellFormed = true := by decide

theorem witness_EncodeOfDecode : decode 0x2000000080000000#64 = .command (.read (-2147483648)) := by decide

theorem witness_AssembledNewLineConstructs :
    sample.Free ∧ sample.cmd = [] ∧ sample.din = [] ∧ sample.cfg.Legal ∧ [0xA5#8].length ≤ sample.cfg.maxBytes :=
  ⟨sample_free, rfl, rfl, by decide, by decide⟩

theorem witness_StepRunsTheDecodedCommand :
    busy.Free ∧ busy.cmd = 0x2000000000000004#64 :: busy.cmd.tail ∧
      decode 0x2000000000000004#64 = .command (.read 4) :=
  ⟨busy_free, rfl, by decide⟩

theorem witness_PlacedTableWordRunsNext : decodeTableWord 64 0x3000000000000007 = some (.bitat 7) := by decide

theorem witness_IllegalWordIsAnsweredIllegalCommand :
    ({ sample with cmd := [0x2800000000000004#64] } : State).Free ∧
      (0x2800000000000004#64).extractLsb' 32 28 ≠ 0#28 ∧ (0x0000000000000000#64).extractLsb' 60 4 = 0x0#4 ∧
      0x4#4 ≤ (0x4000000000000000#64).extractLsb' 60 4 :=
  ⟨⟨rfl, rfl, rfl⟩, by decide, by decide, by decide⟩

theorem witness_ResponseIsHeldUntilTaken :
    ({ sample with rsp := some 2#64, rspReady := false } : State).rsp = some 2#64 ∧
      ({ sample with rsp := some 2#64 } : State).rspReady = true ∧ sample.resetAsserted = false := by decide

theorem witness_EachAcceptedWordIsAnsweredOnce :
    busy.resetAsserted = false ∧ (busy.newInProgress = none ∨ busy.rsp = none) ∧ ∃ t, step busy = .next t :=
  ⟨rfl, .inl rfl, _, rfl⟩

/-- The NEW in progress, and a NEW of one byte that a free block accepts. -/
theorem witness_DinIsTakenOnlyForNew :
    (waiting.newInProgress ≠ none ∧ waiting.rsp = none ∧ ∃ t, step waiting = .next t ∧ t.din = waiting.din.drop 2) ∧
      offered.Free ∧ decode 0x1000000000000001#64 = .command (.new 1) ∧ 1 ≤ offered.cfg.maxBytes ∧
      ∃ t, step offered = .next t ∧ t.cmd = [0x2000000000000004#64] ∧ t.din = offered.din.drop 1 ∧
        t.din ≠ offered.din :=
  ⟨⟨by decide, rfl, _, rfl, by decide⟩, ⟨rfl, rfl, rfl⟩, by decide, by decide, _, rfl, by decide, by decide, by decide⟩

theorem witness_PayloadMayArriveInParts :
    sample.resetAsserted = false ∧ sample.rsp = none ∧ 2 ≤ sample.cfg.maxBytes ∧ [0x12#8].length < 2 := by decide

theorem witness_CompletedPayloadIsAnswered :
    ({ waiting with din := [1#8, 2#8, 3#8] } : State).newInProgress = some { count := 3, taken := [0xA5#8] } ∧
      ({ waiting with din := [1#8, 2#8, 3#8] } : State).din = [1#8, 2#8] ++ [3#8] ∧
      [0xA5#8].length + [1#8, 2#8].length = 3 ∧ waiting.resetAsserted = false ∧ waiting.rsp = none := by decide

theorem witness_ShortPayloadNeverResponds :
    waiting.resetAsserted = false ∧ waiting.rsp = none ∧
      waiting.newInProgress = some { count := 3, taken := [0xA5#8] } ∧ [0xA5#8].length + waiting.din.length < 3 := by
  decide

theorem witness_ParametersNeverChange : ∃ t, step busy = .next t := ⟨_, rfl⟩

/-- The host of one block supplies the byte its NEW lacks while the other block steps. -/
theorem witness_InstancesDoNotInterfere :
    0 ≠ 1 ∧ (Instances.stepAt 0 [.next busy, .next waiting])[1]? = some (.next waiting) ∧
      (Instances.applyAt 1 (.host (.supply 2#8)) [.next busy, .next waiting])[0]? = some (.next busy) :=
  ⟨by decide, rfl, rfl⟩

/-- Two blocks that run, and one that has faulted. -/
theorem witness_EachInstanceLivesItsOwnHistory :
    ([.next busy, .next waiting, .fault .indexOutOfRange] : Instances)[1]? = some (.next waiting) ∧
      ([.next busy, .next waiting, .fault .indexOutOfRange] : Instances)[2]? = some (.fault .indexOutOfRange) ∧
      ownEvents 1 [(0, .block), (1, .host (.supply 2#8)), (2, .host (.setReset true)), (1, .block)] =
        [.host (.supply 2#8), .block] :=
  ⟨rfl, rfl, by decide⟩

/-- MAX_BYTES = 4: five bytes are beyond it, four are not (V-N5, V-N6). -/
theorem witness_NewConstructsTheReader :
    ({ sample with cfg := { maxWidth := 32, maxBytes := 4 } } : State).cfg.maxBytes < 5 ∧
      [1#8, 2#8, 3#8, 4#8].length ≤ ({ sample with cfg := { maxWidth := 32, maxBytes := 4 } } : State).cfg.maxBytes ∧
      ({ sample with din := [1#8, 2#8, 3#8, 4#8, 5#8] } : State).din = [1#8, 2#8, 3#8, 4#8] ++ [5#8] := by decide

theorem witness_NewOfNothingIsDrained : (1 : Int) ≤ 32 ∧ (32 : Int) ≤ sample.cfg.maxWidth := by decide

theorem witness_NewFrame :
    (∃ t, exec (.new 1) waiting = .next t) ∧ 1 ≤ waiting.cfg.maxBytes ∧ 1 ≤ waiting.din.length ∧
      (∃ t, exec (.new 2) waiting = .next t) ∧ 2 ≤ waiting.cfg.maxBytes ∧ waiting.din.length < 2 ∧
      (∃ t, exec (.new 5) { waiting with cfg := { maxWidth := 32, maxBytes := 4 } } = .next t) ∧
      ({ waiting with cfg := { maxWidth := 32, maxBytes := 4 } } : State).cfg.maxBytes < 5 :=
  ⟨⟨_, rfl⟩, by decide, by decide, ⟨_, rfl⟩, by decide, by decide, ⟨_, rfl⟩, by decide⟩

theorem witness_AfterNewTheBytesComeBackInOrder :
    sample.cfg.Legal ∧ [0xDE#8, 0xAD#8].length ≤ sample.cfg.maxBytes ∧
      ({ sample with din := [0xDE#8, 0xAD#8] } : State).din = [0xDE#8, 0xAD#8] ++ [] ∧ 8 ≤ sample.cfg.maxWidth ∧
      15 < [0xDE#8, 0xAD#8].length * 8 := by decide

theorem witness_ReadOfInvalidWidthChangesNothing : (-1 : Int) < 0 ∧ (sample.cfg.maxWidth : Int) < 33 := by decide

/-- Twelve bits remain: 12 fits and 13 does not (V-R8). -/
theorem witness_ReadExhaustsExactlyBeyondTheRemainingBits :
    sample.ReaderInv ∧ (1 : Int) ≤ 12 ∧ (13 : Int) ≤ sample.cfg.maxWidth ∧ (12 : Int) ≤ sample.remaining ∧
      sample.remaining < 13 :=
  ⟨sample_readerInv, by decide, by decide, by decide, by decide⟩

theorem witness_ReadReturnsTheStreamBits :
    sample.ReaderInv ∧ 1 ≤ 12 ∧ 12 ≤ sample.cfg.maxWidth ∧ ((12 : Nat) : Int) ≤ sample.remaining :=
  ⟨sample_readerInv, by decide, by decide, by decide⟩

theorem witness_ReadAssemblesFromTheCursorUpward :
    sample.ReaderInv ∧ 1 ≤ 1 ∧ 1 ≤ sample.cfg.maxWidth ∧ ((1 : Nat) : Int) ≤ sample.remaining :=
  ⟨sample_readerInv, by decide, by decide, by decide⟩

theorem witness_ReadNeverLeavesTheBuffer :
    sample.ReaderInv ∧ (1 : Int) ≤ 12 ∧ 0 ≤ sample.cursor - 12 + 1 ∧ sample.cursor - 12 + 1 ≤ 0 ∧ 0 ≤ sample.cursor :=
  ⟨sample_readerInv, by decide, by decide, by decide, by decide⟩

/-- A cursor one past the last index, which no run reaches. -/
theorem witness_IndexOutOfRangeHasTwoForms :
    (-1 : Int) < 0 ∧ (sample.n : Int) * 8 ≤ 16 ∧ (1 : Int) ≤ sample.cfg.maxWidth ∧
      0 ≤ (reader [0x12#8, 0x34#8] 16).cursor - 1 + 1 ∧
      ((reader [0x12#8, 0x34#8] 16).n : Int) * 8 ≤ (reader [0x12#8, 0x34#8] 16).cursor ∧
      step { reader [0x12#8, 0x34#8] 16 with cmd := [0x2000000000000001#64] } = .fault .indexOutOfRange ∧
      sample.n * 8 ≤ 16 :=
  ⟨by decide, by decide, by decide, by decide, by decide, rfl, by decide⟩

theorem witness_ReadOutcomeRestsOnCursorAndWidth :
    (∃ t, exec (.read 13) sample = .next t ∧ ((12 : Nat) : Int) ≤ t.remaining) ∧ sample.ReaderInv ∧
      (1 : Int) ≤ 13 ∧ (13 : Int) ≤ sample.cfg.maxWidth ∧ sample.remaining < 13 ∧ 12 ≤ sample.cfg.maxWidth ∧
      [Instr.read 4].all (fun i => !isNew i) = true ∧ (∃ t, execAll [.read 13, .read 4] sample = .next t) ∧
      (reader [0x12#8, 0x34#8] (-1)).drained = true ∧
      ∃ t, execAll [.read 4] (reader [0x12#8, 0x34#8] (-1)) = .next t :=
  ⟨⟨_, rfl, by decide⟩, sample_readerInv, by decide, by decide, by decide, by decide, by decide, ⟨_, rfl⟩, by decide,
    _, rfl⟩

/-- Widths that sum to N*8, and a list whose second width passes it. -/
theorem witness_ExhaustionBoundary :
    sample.cfg.Legal ∧ [0x12#8, 0x34#8].length ≤ sample.cfg.maxBytes ∧
      ({ sample with din := [0x12#8, 0x34#8] } : State).din = [0x12#8, 0x34#8] ++ [] ∧
      (∀ w ∈ [4, 12], 1 ≤ w ∧ w ≤ sample.cfg.maxWidth) ∧ [4, 12].sum = [0x12#8, 0x34#8].length * 8 ∧
      [4, 13] = [4] ++ 13 :: [] ∧ [4].sum ≤ [0x12#8, 0x34#8].length * 8 ∧
      [0x12#8, 0x34#8].length * 8 < [4].sum + 13 := by decide

theorem witness_CodesReassembleTheInput :
    sample.cfg.Legal ∧ [0x12#8, 0x34#8].length ≤ sample.cfg.maxBytes ∧
      ({ sample with din := [0x12#8, 0x34#8] } : State).din = [0x12#8, 0x34#8] ++ [] ∧
      (∀ w ∈ [3, 0, 13], w ≤ sample.cfg.maxWidth) ∧ [3, 0, 13].sum = [0x12#8, 0x34#8].length * 8 := by decide

/-- A READ, a NEW that is accepted and completes at once, a NEW in progress that completes, and reset. -/
theorem witness_CursorFallsOnlyByASuccessfulRead :
    (busy.Free ∧ ∃ t, step busy = .next t ∧ t.cursor = busy.cursor - 4 ∧ t.cmd = busy.cmd.tail) ∧
      (offered.Free ∧ ∃ t, step offered = .next t ∧ t.n = 1 ∧ t.cursor = 7) ∧
      (∃ t, step { waiting with din := [1#8, 2#8] } = .next t ∧ t.n = 3 ∧ t.cursor = 23) ∧
      ∃ t, step { busy with resetAsserted := true } = .next t ∧ t.cursor = -1 :=
  ⟨⟨busy_free, _, rfl, by decide, by decide⟩, ⟨⟨rfl, rfl, rfl⟩, _, rfl, by decide, by decide⟩,
    ⟨_, rfl, by decide, by decide⟩, _, rfl, by decide⟩

theorem witness_OfferedReadsRunToTheirCodes :
    ({ sample with cmd := [0x2000000000000004#64, 0x2000000000000008#64, 0#64] } : State).Inv ∧
      ({ sample with cmd := [0x2000000000000004#64, 0x2000000000000008#64, 0#64] } : State).Free ∧
      sample.rspReady = true ∧ (∀ w ∈ [4, 8], 1 ≤ w ∧ w ≤ sample.cfg.maxWidth) ∧
      (([4, 8].sum : Nat) : Int) ≤ sample.remaining ∧
      ({ sample with cmd := [0x2000000000000004#64, 0x2000000000000008#64, 0#64] } : State).cmd =
        [4, 8].map (fun w : Nat => encode (.read (w : Int))) ++ [0#64] :=
  ⟨⟨sample_readerInv.congr rfl rfl rfl rfl, by decide, by decide⟩, ⟨rfl, rfl, rfl⟩, rfl, by decide, by decide,
    by decide⟩

theorem witness_BitatReturnsTheNamedBit : sample.ReaderInv ∧ 0 < sample.n * 8 ∧ 15 < sample.n * 8 :=
  ⟨sample_readerInv, by decide, by decide⟩

theorem witness_BitatIsPure :
    (∃ t, exec (.bitat 14) sample = .next t) ∧ [Instr.read 4].all (fun i => !isNew i) = true ∧
      ∃ u, execAll [.read 4] sample = .next u :=
  ⟨⟨_, rfl⟩, by decide, _, rfl⟩

theorem witness_ReadAndBitatFrame :
    isNew (.read 4) = false ∧ (∃ t, exec (.read 4) sample = .next t) ∧ isNew (.bitat 4) = false ∧
      ∃ t, exec (.bitat 4) sample = .next t :=
  ⟨rfl, ⟨_, rfl⟩, rfl, _, rfl⟩

/-- READ 17 from twelve bits. -/
theorem witness_ErrorsChangeNothing :
    ({ sample with cmd := [0x2000000000000011#64] } : State).Free ∧
      ∃ t, step { sample with cmd := [0x2000000000000011#64] } = .next t ∧ t.rsp = some 0x1000000000000000#64 ∧
        statusField 0x1000000000000000#64 ≠ 0x0#4 :=
  ⟨⟨rfl, rfl, rfl⟩, _, rfl, by decide, by decide⟩

theorem witness_FirstConditionGivesTheStatus :
    busy.Inv ∧ busy.Free ∧ busy.cmd = 0x2000000000000004#64 :: busy.cmd.tail :=
  ⟨busy_inv, busy_free, rfl⟩

/-- The parameters at the ends of their ranges. -/
theorem witness_ResetMeetsTheInvariant :
    ({ maxWidth := 1, maxBytes := 0 } : Config).Legal ∧ ({ maxWidth := 32, maxBytes := 2 ^ 29 } : Config).Legal := by
  decide

theorem witness_StepKeepsTheInvariant : waiting.Inv ∧ ∃ t, step waiting = .next t := ⟨waiting_inv, _, rfl⟩

theorem witness_EveryHistoryKeepsTheInvariant :
    waiting.Inv ∧ ∃ t, runEvents [.host (.supply 2#8), .block, .host (.setReset true), .block] waiting = .next t :=
  ⟨waiting_inv, _, rfl⟩

theorem witness_NoHistoryStops : busy.Inv := busy_inv

theorem witness_ReachableCursorStaysInRange :
    ({ maxWidth := 12, maxBytes := 4 } : Config).Legal ∧
      ∃ t, runEvents [.host (.issue 0x1000000000000001#64), .block, .host (.supply 0xA5#8), .block]
        { State.reset with cfg := { maxWidth := 12, maxBytes := 4 } } = .next t ∧ t.cursor = 7 :=
  ⟨by decide, _, rfl, by decide⟩

theorem witness_StepKeepsTheResponseForm :
    ({ busy with rsp := some 0x1000000000000000#64 } : State).ResponsesFormed ∧
      ∃ t, step { busy with rsp := some 0x1000000000000000#64 } = .next t :=
  ⟨⟨fun _ h => by cases h; decide, fun _ h => nomatch h⟩, _, rfl⟩

end Sys2Proof.Tests
end

section
/-! The parameters MAX_WIDTH and MAX_BYTES through each operation of a step (spec/00_scope.md R8, R9). -/

namespace Sys2Proof.Machine

@[simp] theorem handOver_cfg (r : RspWord) (s : State) : (handOver r s).cfg = s.cfg := by
  cases h : s.rspReady with
  | true => rw [handOver_of_ready h]
  | false => rw [handOver_of_not_ready h]

@[simp] theorem collectPayload_cfg (job : Payload) (s : State) : (collectPayload job s).cfg = s.cfg :=
  (collectPayload_frame job s).1

/-- No command writes the parameters: a NEW collects or is refused, and READ and BITAT write at most the cursor and the
response. -/
theorem exec_cfg {i : Instr} {s t : State} (h : exec i s = .next t) : t.cfg = s.cfg := by
  cases i with
  | new count =>
    rcases execNew_cases h with ⟨-, rfl⟩ | ⟨-, rfl⟩
    · exact respond_cfg _ _ s
    · exact collectPayload_cfg _ s
  | read width =>
    obtain ⟨cursor, rsp, rfl, -⟩ := exec_notNew rfl h
    rfl
  | bitat index =>
    obtain ⟨cursor, rsp, rfl, -⟩ := exec_notNew rfl h
    rfl

/-- Settles O19: each of the things a step can do leaves the parameters alone, a command by `exec_cfg`. -/
theorem parametersNeverChange : Obligations.ParametersNeverChange := by
  intro s t h
  rcases step_cases h with ⟨-, rfl⟩ | ⟨-, r, -, rfl⟩ | ⟨-, -, job, -, rfl⟩ | ⟨-, -, rfl⟩ |
    ⟨-, w, rest, -, ⟨i, -, hexec⟩ | ⟨why, -, rfl⟩⟩
  · exact resetSequence_cfg s
  · exact handOver_cfg r s
  · exact collectPayload_cfg job s
  · rfl
  · exact (exec_cfg hexec).trans (acceptCommand_cfg rest s)
  · exact (respond_cfg _ _ _).trans (acceptCommand_cfg rest s)

end Sys2Proof.Machine
end

section
/-! The invariant of the reachable states through each operation of a step, each host action and every history
(spec/10_state.md R28, spec/00_scope.md R9, spec/30_encoding.md R60). -/

namespace Sys2Proof.Machine

/-- Beyond the reader, the invariant speaks of the NEW in progress and the held response alone. -/
theorem State.Inv.congr {s t : State} (h : s.Inv) (hreader : t.ReaderInv) (hcfg : t.cfg = s.cfg)
    (hnew : t.newInProgress = s.newInProgress) (hrsp : t.rsp = s.rsp) : t.Inv where
  reader := hreader
  lacks := by rw [hnew, hcfg]; exact h.lacks
  oneAtATime := by rw [hnew, hrsp]; exact h.oneAtATime

/-- With no NEW in progress the reader's invariant is all there is to keep. -/
theorem State.ReaderInv.inv_of_noNew {s : State} (h : s.ReaderInv) (hnew : s.newInProgress = none) : s.Inv where
  reader := h
  lacks := by simp [hnew]
  oneAtATime := .inl hnew

/-- Reset establishes it from any state with legal parameters (R34, R105). -/
theorem resetSequence_inv {s : State} (hl : s.cfg.Legal) : (resetSequence s).Inv :=
  (resetSequence_readerInv hl).inv_of_noNew (resetSequence_newInProgress s)

theorem State.ReaderInv.acceptCommand {s : State} (h : s.ReaderInv) (rest : List CmdWord) :
    (acceptCommand rest s).ReaderInv := h.congr rfl rfl rfl rfl

theorem handOver_inv {s : State} (h : s.Inv) (r : RspWord) : (handOver r s).Inv := by
  cases hready : s.rspReady with
  | true =>
    rw [handOver_of_ready hready]
    exact ⟨h.reader.congr rfl rfl rfl rfl, h.lacks, .inr rfl⟩
  | false =>
    rw [handOver_of_not_ready hready]
    exact h

/-- Collecting either ends the NEW or leaves it lacking a byte; no response stands beside it. -/
theorem collectPayload_inv {s : State} {job : Payload} (h : s.ReaderInv) (hrsp : s.rsp = none)
    (hj : job.taken.length ≤ job.count) (hm : job.count ≤ s.cfg.maxBytes) : (collectPayload job s).Inv := by
  have hreader : (collectPayload job s).ReaderInv := collectPayload_readerInv h hm
  rcases collectPayload_cases job s hj with ⟨missing, rest, hd, hl⟩ | hshort
  · exact hreader.inv_of_noNew (by rw [collectPayload_full hd hl])
  · rw [collectPayload_short hshort] at hreader ⊢
    refine ⟨hreader, ?_, .inr hrsp⟩
    rintro _ ⟨⟩
    exact ⟨by simpa using hshort, hm⟩

/-- A command accepted with no NEW in progress and no response held keeps it: NEW by collecting, the others by the
reader alone. -/
theorem exec_inv {i : Instr} {s t : State} (h : s.ReaderInv) (hnew : s.newInProgress = none) (hrsp : s.rsp = none)
    (he : exec i s = .next t) : t.Inv := by
  have hreader : t.ReaderInv := exec_readerInv h he
  have of_notNew : isNew i = false → t.Inv := by
    intro hi
    obtain ⟨cursor, rsp, rfl, -⟩ := exec_notNew hi he
    exact hreader.inv_of_noNew hnew
  cases i with
  | new count =>
    rcases execNew_cases he with ⟨-, rfl⟩ | ⟨hm, rfl⟩
    · exact hreader.inv_of_noNew hnew
    · exact collectPayload_inv h hrsp (Nat.zero_le _) hm
  | read width => exact of_notNew rfl
  | bitat index => exact of_notNew rfl

theorem step_inv {s t : State} (h : s.Inv) (hs : step s = .next t) : t.Inv := by
  rcases step_cases hs with ⟨-, rfl⟩ | ⟨-, r, -, rfl⟩ | ⟨-, hrsp, job, hjob, rfl⟩ | ⟨-, -, rfl⟩ |
    ⟨hfree, w, rest, -, ⟨i, -, he⟩ | ⟨why, -, rfl⟩⟩
  · exact resetSequence_inv h.reader.legal
  · exact handOver_inv h r
  · obtain ⟨hlacks, hm⟩ := h.lacks job hjob
    exact collectPayload_inv h.reader hrsp (Nat.le_of_lt hlacks) hm
  · exact h
  · exact exec_inv (h.reader.acceptCommand rest) hfree.noNew hfree.noResponse he
  · exact ((h.reader.acceptCommand rest).respond _ _).inv_of_noNew hfree.noNew

/-- Asserting reset establishes it anew; every other host action writes only the host's side of the ports. -/
theorem hostAct_inv {s : State} (h : s.Inv) (a : HostAction) : (hostAct a s).Inv := by
  rcases a with w | b | level | (_ | _)
  case setReset.true =>
    exact (resetSequence_inv h.reader.legal).congr
      ((resetSequence_readerInv h.reader.legal).congr rfl rfl rfl rfl) rfl rfl rfl
  all_goals exact h.congr (h.reader.congr rfl rfl rfl rfl) rfl rfl rfl

theorem applyEvent_inv {e : Event} {s t : State} (h : s.Inv) (he : applyEvent e s = .next t) : t.Inv := by
  cases e with
  | host a =>
    obtain rfl : hostAct a s = t := by simpa [applyEvent] using he
    exact hostAct_inv h a
  | block => exact step_inv h he

/-- What every event keeps, every history keeps. -/
theorem runEvents_preserves {P : State → Prop} (event : ∀ e s t, P s → applyEvent e s = .next t → P t)
    {events : List Event} {s t : State} (h : P s) (hrun : runEvents events s = .next t) : P t := by
  induction events generalizing s with
  | nil =>
    obtain rfl : s = t := by simpa using hrun
    exact h
  | cons e rest ih =>
    cases he : applyEvent e s with
    | next u =>
      rw [runEvents_cons_of_next he] at hrun
      exact ih (event e s u h he) hrun
    | fault r => simp [runEvents_cons_of_fault he] at hrun
    | refused r => simp [runEvents_cons_of_refused he] at hrun

/-- Settles O44: by what the step can do, each action keeping the invariant by its own lemma. -/
theorem stepKeepsTheInvariant : Obligations.StepKeepsTheInvariant :=
  fun _ _ => step_inv

/-- Settles O45: by induction on the history, each event keeping the invariant by `applyEvent_inv`. -/
theorem everyHistoryKeepsTheInvariant : Obligations.EveryHistoryKeepsTheInvariant :=
  fun _ _ _ => runEvents_preserves fun _ _ _ => applyEvent_inv

/-- Settles O43: the reset state is what the reset sequence leaves of it, whatever its parameters. -/
theorem resetMeetsTheInvariant : Obligations.ResetMeetsTheInvariant := by
  have hreset : ∀ c : Config, c.Legal → ({ State.reset with cfg := c } : State).Inv := fun c hc =>
    resetSequence_inv (s := { State.reset with cfg := c }) hc
  have hdefault : Config.default.Legal := by decide
  exact ⟨hreset Config.default hdefault, hreset⟩

/-- Settles O47: R28 is part of the invariant, which holds at reset and along every history. -/
theorem reachableCursorStaysInRange : Obligations.ReachableCursorStaysInRange := by
  intro c events t hc hrun
  have hinv : t.Inv := everyHistoryKeepsTheInvariant events _ t (resetMeetsTheInvariant.2 c hc) hrun
  exact ⟨hinv.reader.cursorLow, hinv.reader.cursorHigh⟩

end Sys2Proof.Machine
end

section
/-! What each command writes and what it leaves, and what moves the cursor (spec/10_state.md R23, R33, R34). -/

namespace Sys2Proof.Machine

theorem responseWord_ok_zero : responseWord .ok 0#32 = 0x0000000000000000#64 := by decide

@[simp] theorem handOver_cursor (r : RspWord) (s : State) : (handOver r s).cursor = s.cursor := by
  cases h : s.rspReady with
  | true => rw [handOver_of_ready h]
  | false => rw [handOver_of_not_ready h]

/-- A NEW within capacity collects its payload (R70). -/
theorem execNew_of_fits {count : Nat} {s : State} (hm : count ≤ s.cfg.maxBytes) :
    execNew count s = .next (collectPayload { count := count, taken := [] } s) := by
  rw [execNew, if_neg (by omega)]

/-- A NEW within capacity whose whole payload is offered completes at once (R70). -/
theorem execNew_of_offered {contents rest : List Byte} {s : State} (hm : contents.length ≤ s.cfg.maxBytes)
    (hd : s.din = contents ++ rest) :
    execNew contents.length s = .next { s with
      buffer := Memory.ofBytes contents.reverse
      n := contents.length
      cursor := (contents.length : Int) * 8 - 1
      newInProgress := none
      din := rest
      rsp := some 0x0000000000000000#64 } := by
  rw [execNew_of_fits hm, collectPayload_full hd (by simp), responseWord_ok_zero, List.nil_append]

/-- Collecting leaves the cursor alone, or ends the NEW with OK and the cursor on its last bit (R23, R70). -/
theorem collectPayload_cursor (job : Payload) (s : State) :
    (collectPayload job s).cursor = s.cursor ∨
      ((collectPayload job s).n = job.count ∧ (collectPayload job s).newInProgress = none ∧
        (collectPayload job s).rsp = some 0x0000000000000000#64 ∧
        (collectPayload job s).cursor = ((collectPayload job s).n : Int) * 8 - 1) := by
  simp only [collectPayload]
  split
  · next hlen => exact .inr ⟨hlen, rfl, congrArg some responseWord_ok_zero, rfl⟩
  · exact .inl rfl

/-- READ moves the cursor only by a width of at least 1 that it answers with OK (R23, R80). -/
theorem execRead_cursor {width : Int} {s t : State} (h : execRead width s = .next t) :
    t.cursor = s.cursor ∨
      (1 ≤ width ∧ t.cursor = s.cursor - width ∧ ∃ r, t.rsp = some r ∧ statusField r = 0x0#4) := by
  rcases execRead_cases h with ⟨-, rfl⟩ | ⟨-, rfl⟩ | ⟨-, -, -, rfl⟩ | ⟨h1, -, -, code, -, rfl⟩
  · exact .inl rfl
  · exact .inl rfl
  · exact .inl rfl
  · exact .inr ⟨h1, rfl, _, rfl, statusField_responseWord _ _⟩

theorem execBitat_cursor {index : Nat} {s t : State} (h : execBitat index s = .next t) : t.cursor = s.cursor := by
  rcases execBitat_cases h with ⟨-, rfl⟩ | ⟨-, bit, -, rfl⟩
  · rfl
  · rfl

/-- Settles O24: NEW is refused, or collects a payload that is all offered, or one that is short. -/
theorem newFrame : Obligations.NewFrame := by
  intro s t count h
  rcases execNew_cases h with ⟨hover, rfl⟩ | ⟨hfits, rfl⟩
  · exact ⟨rfl, rfl, rfl, rfl, rfl, fun hm => by omega, fun hm => by omega,
      fun _ => ⟨rfl, fun _ => rfl, rfl, rfl, rfl, rfl⟩⟩
  · obtain ⟨hcfg, hcmd, hready, hreceived, hreset, -⟩ := collectPayload_frame { count := count, taken := [] } s
    refine ⟨hcfg, hcmd, hready, hreceived, hreset, fun _ hall => ?_, fun _ hshort => ?_, fun hover => by omega⟩
    · have hd : s.din = s.din.take count ++ s.din.drop count := (List.take_append_drop count s.din).symm
      rw [collectPayload_full hd (by simpa using hall)]
      exact ⟨rfl, rfl, rfl, rfl⟩
    · rw [collectPayload_short (by simpa using hshort)]
      exact ⟨rfl, fun _ => rfl, rfl, rfl, rfl, rfl, rfl⟩

/-- Settles O36: by what the step can do; only the reset sequence, a collected payload and a READ write the cursor. -/
theorem cursorFallsOnlyByASuccessfulRead : Obligations.CursorFallsOnlyByASuccessfulRead := by
  intro s t h
  rcases step_cases h with ⟨hreset, rfl⟩ | ⟨-, r, -, rfl⟩ | ⟨hreleased, hrsp, job, hjob, rfl⟩ | ⟨-, -, rfl⟩ |
    ⟨hfree, w, rest, hcmd, ⟨i, hdecode, he⟩ | ⟨why, -, rfl⟩⟩
  · exact .inr (.inl ⟨hreset, rfl⟩)
  · exact .inl (handOver_cursor r s)
  · rcases collectPayload_cursor job s with hsame | ⟨hn, hdone⟩
    · exact .inl hsame
    · obtain ⟨-, hkept, -⟩ := collectPayload_frame job s
      exact .inr (.inr (.inr ⟨.inl ⟨hreleased, hrsp, hkept, job, hjob, hn⟩, hdone⟩))
  · exact .inl rfl
  · cases i with
    | new count =>
      rcases execNew_cases he with ⟨-, rfl⟩ | ⟨-, rfl⟩
      · exact .inl rfl
      · rcases collectPayload_cursor { count := count, taken := [] } (acceptCommand rest s) with hsame | ⟨hn, hdone⟩
        · exact .inl hsame
        · obtain ⟨-, hrest, -⟩ := collectPayload_frame { count := count, taken := [] } (acceptCommand rest s)
          exact .inr (.inr (.inr ⟨.inr ⟨hfree, w, rest, count, hcmd, hdecode, hrest, hn⟩, hdone⟩))
    | read width =>
      rcases execRead_cursor he with hsame | ⟨h1, hfall, r, hrsp, hok⟩
      · exact .inl hsame
      · obtain ⟨cursor, rsp, rfl, -⟩ := exec_notNew rfl he
        exact .inr (.inr (.inl ⟨hfree, w, rest, width, r, hcmd, hdecode, rfl, h1, hfall, hrsp, hok⟩))
    | bitat index => exact .inl ((execBitat_cursor he).trans (acceptCommand_cursor rest s))
  · exact .inl rfl

/-- Settles O40: by `exec_notNew` all but the cursor and the response is kept; the cursor by each command's own
lemma. -/
theorem readAndBitatFrame : Obligations.ReadAndBitatFrame := by
  intro i s t hi h
  have hbitat : ∀ k, i = .bitat k → t.cursor = s.cursor := by
    rintro k rfl
    exact execBitat_cursor h
  have hread : ∀ w, i = .read w → t.cursor = s.cursor ∨ (1 ≤ w ∧ t.cursor = s.cursor - w) := by
    rintro w rfl
    exact (execRead_cursor h).imp_right fun ⟨h1, hfall, _⟩ => ⟨h1, hfall⟩
  obtain ⟨cursor, rsp, rfl, -⟩ := exec_notNew hi h
  exact ⟨rfl, rfl, fun _ => rfl, rfl, rfl, rfl, rfl, rfl, rfl, rfl, hbitat, hread⟩

/-- Settles O1: a NEW of nothing has its whole payload, so it completes from the reset state with the same reader. -/
theorem resetIsTheEmptyReader : Obligations.ResetIsTheEmptyReader :=
  ⟨rfl, rfl, rfl, rfl, rfl, _, execNew_of_offered (contents := []) (rest := []) (Nat.zero_le _) rfl, rfl, rfl, rfl, rfl⟩

end Sys2Proof.Machine
end

section
/-! The acceptance of a command word by a free block (spec/20_memory.md R46, spec/30_encoding.md R50, R61). -/

namespace Sys2Proof.Machine

/-- A free block accepts CMD's head and runs the command it decodes to. -/
theorem step_of_command {s : State} (h : s.Free) {w : CmdWord} {rest : List CmdWord} (hc : s.cmd = w :: rest)
    {i : Instr} (hd : decode w = .command i) : step s = exec i (acceptCommand rest s) := by
  simp only [step, phase_of_free h hc, hd]

/-- Settles O10: accepting CMD's head drops that word and leaves the rest of the state. -/
theorem stepRunsTheDecodedCommand : Obligations.StepRunsTheDecodedCommand :=
  fun _ _ _ _ hfree hcmd hdecode => step_of_command hfree hcmd hdecode

end Sys2Proof.Machine
end

section
/-! The decoder by the word's fields, and the two directions of its round trip with the encoder
(spec/30_encoding.md R51, R52, R53, R58, R61, R64). -/

namespace Sys2Proof

theorem decode_of_opNew {w : CmdWord} (hr : rsvField w = 0#28) (ho : opField w = opNew) :
    decode w = .command (.new (argField w).toNat) := by
  simp [decode, hr, ho]

theorem decode_of_opRead {w : CmdWord} (hr : rsvField w = 0#28) (ho : opField w = opRead) :
    decode w = .command (.read (argField w).toInt) := by
  simp [decode, hr, ho, opRead, opNew]

theorem decode_of_opBitat {w : CmdWord} (hr : rsvField w = 0#28) (ho : opField w = opBitat) :
    decode w = .command (.bitat (argField w).toNat) := by
  simp [decode, hr, ho, opBitat, opRead, opNew]

/-- The OPs beside R52's three are the reserved ones of R58. -/
theorem reservedOp_iff (op : BitVec 4) :
    (op ≠ opNew ∧ op ≠ opRead ∧ op ≠ opBitat) ↔ (op = 0x0#4 ∨ 0x4#4 ≤ op) := by
  revert op; decide

/-- A word that decodes to a command has RSV zero, R52's OP for it, and ARG as its operand. -/
theorem decode_command_cases {w : CmdWord} {i : Instr} (h : decode w = .command i) :
    rsvField w = 0#28 ∧
      ((opField w = opNew ∧ i = .new (argField w).toNat) ∨
       (opField w = opRead ∧ i = .read (argField w).toInt) ∨
       (opField w = opBitat ∧ i = .bitat (argField w).toNat)) := by
  unfold decode at h
  split at h
  · cases h
  · next hr =>
    refine ⟨not_not.mp hr, ?_⟩
    split at h
    · next ho => exact .inl ⟨ho, (Decoded.command.inj h).symm⟩
    · split at h
      · next ho => exact .inr (.inl ⟨ho, (Decoded.command.inj h).symm⟩)
      · split at h
        · next ho => exact .inr (.inr ⟨ho, (Decoded.command.inj h).symm⟩)
        · cases h

/-- The illegal words are exactly R58's. -/
theorem decode_illegal_iff (w : CmdWord) :
    (∃ why, decode w = .illegal why) ↔ rsvField w ≠ 0#28 ∨ opField w = 0x0#4 ∨ 0x4#4 ≤ opField w := by
  rw [← reservedOp_iff]
  constructor
  · rintro ⟨why, h⟩
    by_contra hlegal
    simp only [not_or, not_and_or, not_not] at hlegal
    obtain ⟨hr, ho | ho | ho⟩ := hlegal
    · simp [decode_of_opNew hr ho] at h
    · simp [decode_of_opRead hr ho] at h
    · simp [decode_of_opBitat hr ho] at h
  · rintro (hr | ⟨hnew, hread, hbitat⟩)
    · exact ⟨.reservedBits, if_pos hr⟩
    · by_cases hr : rsvField w = 0#28
      · exact ⟨.reservedOp, by simp [decode, hr, hnew, hread, hbitat]⟩
      · exact ⟨.reservedBits, if_pos hr⟩

/-- A number that ARG can hold is read back from it. -/
theorem argField_packCommand_ofNat (op : BitVec 4) {k : Nat} (hk : k < 2 ^ 32) :
    (argField (packCommand op (BitVec.ofNat 32 k))).toNat = k := by
  rw [argField_packCommand, BitVec.toNat_ofNat, Nat.mod_eq_of_lt hk]

/-- Settles O7: the packed OP picks the command's branch, and a well-formed operand fits the 32 bits of ARG. -/
theorem decodeOfEncode : Obligations.DecodeOfEncode := by
  intro i hwf
  cases i with
  | new count =>
    have hlt : count < 2 ^ 32 := by simpa [Instr.wellFormed] using hwf
    rw [encode, decode_of_opNew (rsvField_packCommand _ _) (opField_packCommand _ _),
      argField_packCommand_ofNat _ hlt]
  | read width =>
    obtain ⟨hlow, hhigh⟩ : -2 ^ 31 ≤ width ∧ width < 2 ^ 31 := by simpa [Instr.wellFormed] using hwf
    rw [encode, decode_of_opRead (rsvField_packCommand _ _) (opField_packCommand _ _), argField_packCommand,
      BitVec.toInt_ofInt_eq_self (by decide) hlow hhigh]
  | bitat index =>
    have hlt : index < 2 ^ 32 := by simpa [Instr.wellFormed] using hwf
    rw [encode, decode_of_opBitat (rsvField_packCommand _ _) (opField_packCommand _ _),
      argField_packCommand_ofNat _ hlt]

/-- Settles O8: RSV is zero, so OP and ARG are the whole word, and ARG comes back from the operand it made. -/
theorem encodeOfDecode : Obligations.EncodeOfDecode := by
  intro w i h
  obtain ⟨hr, ⟨ho, rfl⟩ | ⟨ho, rfl⟩ | ⟨ho, rfl⟩⟩ := decode_command_cases h
  · refine ⟨decide_eq_true (argField w).isLt, ?_⟩
    rw [encode, BitVec.ofNat_toNat, BitVec.setWidth_eq, ← ho, packCommand_fields hr]
  · have hlow : -2 ^ 31 ≤ (argField w).toInt := BitVec.le_toInt (argField w)
    have hhigh : (argField w).toInt < 2 ^ 31 := BitVec.toInt_lt
    refine ⟨by simpa [Instr.wellFormed] using ⟨hlow, hhigh⟩, ?_⟩
    rw [encode, BitVec.ofInt_toInt, ← ho, packCommand_fields hr]
  · refine ⟨decide_eq_true (argField w).isLt, ?_⟩
    rw [encode, BitVec.ofNat_toNat, BitVec.setWidth_eq, ← ho, packCommand_fields hr]

/-- Settles O5: one lemma per OP, and the illegal words by `decode_illegal_iff`. -/
theorem decodingFollowsTheFields : Obligations.DecodingFollowsTheFields :=
  fun w => ⟨decode_of_opNew, decode_of_opRead, decode_of_opBitat, decode_illegal_iff w⟩

/-- Settles O4: R64's rows are closed words, each evaluated. -/
theorem specExampleWordsDecode : Obligations.SpecExampleWordsDecode := by
  unfold Obligations.SpecExampleWordsDecode
  decide

end Sys2Proof
end

section
/-! What a free block does with the word it accepts, and with a held response (spec/30_encoding.md R50, R58, R62,
R65). -/

namespace Sys2Proof.Machine

theorem responseWord_illegalCommand_zero : responseWord .illegalCommand 0#32 = 0x4000000000000000#64 := by decide

/-- A free block answers an illegal word ILLEGAL_COMMAND (R58). -/
theorem step_of_illegal {s : State} (h : s.Free) {w : CmdWord} {rest : List CmdWord} (hc : s.cmd = w :: rest)
    {why : IllegalWord} (hd : decode w = .illegal why) :
    step s = .next (raise .illegalCommand (acceptCommand rest s)) := by
  simp only [step, phase_of_free h hc, hd]

/-- Settles O12: such a word decodes to illegal, and `raise` writes the response alone. -/
theorem illegalWordIsAnsweredIllegalCommand : Obligations.IllegalWordIsAnsweredIllegalCommand := by
  intro s w rest hfree hcmd hfields
  obtain ⟨why, hd⟩ := (decode_illegal_iff w).mpr hfields
  rw [step_of_illegal hfree hcmd hd, raise_eq, respond, responseWord_illegalCommand_zero]
  rfl

/-- Settles O13: with a response held the step is its transfer, which the ready line decides. -/
theorem responseIsHeldUntilTaken : Obligations.ResponseIsHeldUntilTaken := by
  intro s r hreleased hrsp
  rw [step_of_response hreleased hrsp]
  exact ⟨fun hnot => congrArg _ (handOver_of_not_ready hnot r), fun hready => congrArg _ (handOver_of_ready hready r)⟩

theorem offerNext_free (w : CmdWord) (s : State) : (offerNext w s).Free := ⟨rfl, rfl, rfl⟩

/-- A table word that reads as a command is a command word that decodes to it. -/
theorem decodeTableWord_eq_some {nbits w : Nat} {i : Instr} (h : decodeTableWord nbits w = some i) :
    ∃ word, tableWord nbits w = some word ∧ decode word = .command i := by
  unfold decodeTableWord at h
  split at h
  · cases h
  · next word hword =>
    split at h
    · next j hj => exact ⟨word, hword, hj.trans (congrArg _ (Option.some.inj h))⟩
    · cases h

/-- Settles O11: the word is placed at the head of CMD of a free block, and accepting it restores CMD. -/
theorem placedTableWordRunsNext : Obligations.PlacedTableWordRunsNext := by
  intro s nbits w i h
  obtain ⟨word, hword, hdecode⟩ := decodeTableWord_eq_some h
  have hplaced : s.withFetchWord nbits w = offerNext word s := by rw [State.withFetchWord, hword]
  rw [hplaced, step_of_command (offerNext_free word s) (offerNext_cmd word s) hdecode]
  rfl

/-- A NEW line offered where nothing was: its word on CMD and its bytes on DIN (R62). -/
theorem offerProgram_new {s : State} (hcmd : s.cmd = []) (hdin : s.din = []) (bytes : List Byte) :
    offerProgram [.new bytes] s = { s with cmd := [encode (.new bytes.length)], din := bytes } := by
  simp [offerProgram, assemble, assembleLine, hcmd, hdin]

/-- Settles O9: the offered word decodes to its NEW, whose whole payload is on DIN. -/
theorem assembledNewLineConstructs : Obligations.AssembledNewLineConstructs := by
  intro s bytes hfree hcmd hdin hlegal hfits
  obtain ⟨hreleased, hnoResponse, hnoNew⟩ := hfree
  obtain ⟨-, -, hmax⟩ := hlegal
  have hdecode : decode (encode (.new bytes.length)) = .command (.new bytes.length) :=
    decodeOfEncode _ (decide_eq_true (by omega))
  have hoffered : State.Free { s with cmd := [encode (.new bytes.length)], din := bytes } :=
    ⟨hreleased, hnoResponse, hnoNew⟩
  rw [offerProgram_new hcmd hdin, step_of_command hoffered rfl hdecode]
  refine (execNew_of_offered (s := { s with cmd := [], din := bytes }) hfits (List.append_nil bytes).symm).trans ?_
  rw [hcmd, hdin, hnoNew]

end Sys2Proof.Machine
end

section
/-! NEW's payload: complete, short, or in two parts (spec/30_encoding.md R60, R65). -/

namespace Sys2Proof.Machine

/-- Settles O17: the step of a NEW in progress collects, and its missing bytes are there. -/
theorem completedPayloadIsAnswered : Obligations.CompletedPayloadIsAnswered := by
  intro s job missing rest hreleased hrsp hjob hdin hlength
  rw [step_of_new hreleased hrsp hjob, collectPayload_full hdin hlength, responseWord_ok_zero]

/-- A block whose NEW lacks a byte and whose host offers none waits (R65), for any number of steps. -/
theorem runSteps_of_starved {s : State} {job : Payload} (hreleased : s.resetAsserted = false) (hrsp : s.rsp = none)
    (hjob : s.newInProgress = some job) (hdin : s.din = []) (hlacks : job.taken.length < job.count) (k : Nat) :
    runSteps k s = .next s := by
  have hstep : step s = .next s := by
    rw [step_of_new hreleased hrsp hjob, collectPayload_short (by simpa [hdin] using hlacks), hdin, List.append_nil,
      ← hjob, ← hdin]
  induction k with
  | zero => rfl
  | succ k ih => rw [runSteps_of_next hstep, ih]

/-- Settles O18: the first step takes what is offered, and from there the NEW starves. -/
theorem shortPayloadNeverResponds : Obligations.ShortPayloadNeverResponds := by
  intro s job k hreleased hrsp hjob hshort
  rw [runSteps_of_next (step_of_new hreleased hrsp hjob), collectPayload_short hshort]
  have hlacks : (job.taken ++ s.din).length < job.count := by simpa using hshort
  exact runSteps_of_starved (s := { s with newInProgress := some ⟨job.count, job.taken ++ s.din⟩, din := [] })
    hreleased hrsp rfl rfl hlacks k

/-- Bytes taken earlier count as if offered in front of the later ones. -/
theorem collectPayload_of_parts {count : Nat} {first : List Byte} (hfirst : first.length < count) (later : List Byte)
    (s : State) :
    collectPayload { count := count, taken := first }
        { s with newInProgress := some { count := count, taken := first }, din := later } =
      collectPayload { count := count, taken := [] } { s with din := first ++ later } := by
  rcases collectPayload_cases { count := count, taken := first }
    { s with newInProgress := some { count := count, taken := first }, din := later } hfirst.le with
    ⟨missing, rest, hdin, hlength⟩ | hshort
  · have hdin' : first ++ later = (first ++ missing) ++ rest := by
      rw [List.append_assoc]; exact congrArg _ hdin
    rw [collectPayload_full hdin hlength, collectPayload_full hdin' (by simpa using hlength)]
    rfl
  · rw [collectPayload_short hshort, collectPayload_short (by simpa using hshort)]
    rfl

/-- Settles O16: the first part leaves the NEW in progress, and collecting goes on as if the whole had been offered. -/
theorem payloadMayArriveInParts : Obligations.PayloadMayArriveInParts := by
  intro s count first later hreleased hrsp hfits hfirst
  have hnew : ∀ bytes : List Byte, exec (.new count) { s with din := bytes } =
      .next (collectPayload { count := count, taken := [] } { s with din := bytes }) :=
    fun bytes => execNew_of_fits (s := { s with din := bytes }) hfits
  rw [hnew, hnew, collectPayload_short (by simpa using hfirst)]
  refine ⟨_, rfl, hrsp, ?_⟩
  rw [← collectPayload_of_parts hfirst]
  exact step_of_new (s := { s with newInProgress := some ⟨count, first⟩, din := later }) hreleased hrsp rfl

end Sys2Proof.Machine
end

section
/-! What a step takes from CMD and DIN and what it answers (spec/30_encoding.md R54 to R57, R60). -/

namespace Sys2Proof.Machine

/-! ## The ports that a command leaves alone -/

@[simp] theorem handOver_cmd (r : RspWord) (s : State) : (handOver r s).cmd = s.cmd := by
  simp only [handOver]; split <;> rfl

@[simp] theorem handOver_din (r : RspWord) (s : State) : (handOver r s).din = s.din := by
  simp only [handOver]; split <;> rfl

@[simp] theorem collectPayload_cmd (job : Payload) (s : State) : (collectPayload job s).cmd = s.cmd := by
  obtain ⟨-, hcmd, -⟩ := collectPayload_frame job s
  exact hcmd

@[simp] theorem collectPayload_received (job : Payload) (s : State) :
    (collectPayload job s).received = s.received := by
  obtain ⟨-, -, -, hreceived, -⟩ := collectPayload_frame job s
  exact hreceived

@[simp] theorem collectPayload_din (job : Payload) (s : State) :
    (collectPayload job s).din = s.din.drop (job.count - job.taken.length) := by
  obtain ⟨-, -, -, -, -, hdin⟩ := collectPayload_frame job s
  exact hdin

/-- A command answers at once, writing at most the cursor beside the response, or it is a NEW within capacity and
collects its payload. -/
theorem exec_cases {i : Instr} {s t : State} (h : exec i s = .next t) :
    (∃ cursor rsp, t = { s with cursor := cursor, rsp := some rsp }) ∨
      ∃ count, i = .new count ∧ count ≤ s.cfg.maxBytes ∧ t = collectPayload { count := count, taken := [] } s := by
  have of_notNew : isNew i = false → ∃ cursor rsp, t = { s with cursor := cursor, rsp := some rsp } := by
    intro hi
    obtain ⟨cursor, rsp, ht, -⟩ := exec_notNew hi h
    exact ⟨cursor, rsp, ht⟩
  cases i with
  | new count =>
    rcases execNew_cases h with ⟨-, rfl⟩ | ⟨hfits, ht⟩
    · exact .inl ⟨s.cursor, _, rfl⟩
    · exact .inr ⟨count, rfl, hfits, ht⟩
  | read width => exact .inl (of_notNew rfl)
  | bitat index => exact .inl (of_notNew rfl)

/-- No command takes a word of CMD or a response from the record. -/
theorem exec_cmd_received {i : Instr} {s t : State} (h : exec i s = .next t) :
    t.cmd = s.cmd ∧ t.received = s.received := by
  rcases exec_cases h with ⟨cursor, rsp, rfl⟩ | ⟨count, -, -, rfl⟩
  · exact ⟨rfl, rfl⟩
  · exact ⟨collectPayload_cmd _ s, collectPayload_received _ s⟩

/-- Only a NEW within capacity takes bytes of DIN, at most its count (R60). -/
theorem exec_din {i : Instr} {s t : State} (h : exec i s = .next t) :
    t.din = s.din ∨ ∃ count, i = .new count ∧ count ≤ s.cfg.maxBytes ∧ t.din = s.din.drop count := by
  rcases exec_cases h with ⟨cursor, rsp, rfl⟩ | ⟨count, hi, hfits, rfl⟩
  · exact .inl rfl
  · exact .inr ⟨count, hi, hfits, collectPayload_din _ s⟩

/-- Settles O15: collecting takes what the NEW in progress lacks; an accepted command takes bytes only by `exec_din`. -/
theorem dinIsTakenOnlyForNew : Obligations.DinIsTakenOnlyForNew := by
  intro s t h
  rcases step_cases h with ⟨-, rfl⟩ | ⟨-, r, -, rfl⟩ | ⟨hreleased, hrsp, job, hjob, rfl⟩ | ⟨-, -, rfl⟩ |
    ⟨hfree, w, rest, hcmd, ⟨i, hdecode, he⟩ | ⟨why, -, rfl⟩⟩
  · exact ⟨fun _ => rfl, .inl rfl⟩
  · exact ⟨fun _ => handOver_cmd r s, .inl (handOver_din r s)⟩
  · exact ⟨fun _ => collectPayload_cmd job s, .inr (.inl ⟨hreleased, hrsp, job, hjob, collectPayload_din job s⟩)⟩
  · exact ⟨fun _ => rfl, .inl rfl⟩
  · refine ⟨fun hnew => absurd hfree.noNew hnew, ?_⟩
    obtain ⟨hrest, -⟩ := exec_cmd_received he
    rcases exec_din he with hkept | ⟨count, rfl, hfits, htaken⟩
    · exact .inl hkept
    · exact .inr (.inr ⟨hfree, w, rest, count, hcmd, hdecode, hfits, hrest, htaken⟩)
  · exact ⟨fun hnew => absurd hfree.noNew hnew, .inl rfl⟩

/-! ## One answer for each accepted word -/

/-- Exactly one answer is due: a response held, or a NEW in progress, and not both. -/
def State.OwesOne (s : State) : Prop :=
  (s.newInProgress = none ∧ ∃ r, s.rsp = some r) ∨ (s.rsp = none ∧ ∃ job, s.newInProgress = some job)

theorem State.OwesOne.answers_eq {s : State} (h : s.OwesOne) : s.answers = s.received.length + 1 := by
  rcases h with ⟨hnew, r, hrsp⟩ | ⟨hrsp, job, hnew⟩
  · simp [State.answers, hnew, hrsp]
  · simp [State.answers, hnew, hrsp]

theorem State.OwesOne.oneAtATime {s : State} (h : s.OwesOne) : s.newInProgress = none ∨ s.rsp = none :=
  h.imp And.left And.left

theorem State.Free.answers_eq {s : State} (h : s.Free) : s.answers = s.received.length := by
  simp [State.answers, h.noNew, h.noResponse]

theorem handOver_answers {s : State} {r : RspWord} (hrsp : s.rsp = some r) : (handOver r s).answers = s.answers := by
  cases hready : s.rspReady with
  | true => rw [handOver_of_ready hready]; simp [State.answers, hrsp]
  | false => rw [handOver_of_not_ready hready]

/-- Collecting ends the NEW with OK, or leaves it in progress and the response as it was. -/
theorem collectPayload_answer (job : Payload) (s : State) :
    ((collectPayload job s).newInProgress = none ∧ (collectPayload job s).rsp = some (responseWord .ok 0#32)) ∨
      ((∃ job', (collectPayload job s).newInProgress = some job') ∧ (collectPayload job s).rsp = s.rsp) := by
  simp only [collectPayload]
  split
  · exact .inl ⟨rfl, rfl⟩
  · exact .inr ⟨⟨_, rfl⟩, rfl⟩

theorem collectPayload_owesOne {s : State} (hrsp : s.rsp = none) (job : Payload) : (collectPayload job s).OwesOne :=
  (collectPayload_answer job s).imp (fun ⟨hnew, hok⟩ => ⟨hnew, _, hok⟩) fun ⟨hnew, hkept⟩ => ⟨hkept.trans hrsp, hnew⟩

/-- A command run by a free block leaves one answer due. -/
theorem exec_owesOne {i : Instr} {s t : State} (hnew : s.newInProgress = none) (hrsp : s.rsp = none)
    (h : exec i s = .next t) : t.OwesOne := by
  rcases exec_cases h with ⟨cursor, rsp, rfl⟩ | ⟨count, -, -, rfl⟩
  · exact .inl ⟨hnew, rsp, rfl⟩
  · exact collectPayload_owesOne hrsp _

/-- An accepted word is one word less on CMD and one answer more. -/
theorem State.OwesOne.balance {s t : State} (h : t.OwesOne) (hfree : s.Free) {w : CmdWord} {rest : List CmdWord}
    (hs : s.cmd = w :: rest) (ht : t.cmd = rest) (hreceived : t.received = s.received) :
    t.answers + t.cmd.length = s.answers + s.cmd.length := by
  rw [h.answers_eq, hfree.answers_eq, hs, ht, hreceived, List.length_cons]
  omega

/-- Settles O14: a transfer moves an answer, collecting keeps the one NEW owes, and an accepted word adds one. -/
theorem eachAcceptedWordIsAnsweredOnce : Obligations.EachAcceptedWordIsAnsweredOnce := by
  intro s t hreleased hone h
  rcases step_cases h with ⟨hreset, -⟩ | ⟨-, r, hrsp, rfl⟩ | ⟨-, hrsp, job, hjob, rfl⟩ | ⟨-, -, rfl⟩ |
    ⟨hfree, w, rest, hcmd, hrun⟩
  · simp [hreleased] at hreset
  · refine ⟨by rw [handOver_answers hrsp, handOver_cmd], ?_⟩
    cases hready : s.rspReady with
    | true =>
      rw [handOver_of_ready hready]
      exact ⟨.inr rfl, .inr ⟨r, hrsp, rfl, rfl⟩⟩
    | false =>
      rw [handOver_of_not_ready hready]
      exact ⟨hone, .inl ⟨rfl, .inr rfl⟩⟩
  · have howed : s.OwesOne := .inr ⟨hrsp, job, hjob⟩
    have howes : (collectPayload job s).OwesOne := collectPayload_owesOne hrsp job
    refine ⟨?_, howes.oneAtATime, .inl ⟨collectPayload_received job s, .inl hrsp⟩⟩
    rw [howes.answers_eq, howed.answers_eq, collectPayload_received, collectPayload_cmd]
  · exact ⟨rfl, hone, .inl ⟨rfl, .inr rfl⟩⟩
  · have haccepted : t.OwesOne ∧ t.cmd = rest ∧ t.received = s.received := by
      rcases hrun with ⟨i, -, he⟩ | ⟨why, -, rfl⟩
      · exact ⟨exec_owesOne (s := acceptCommand rest s) hfree.noNew hfree.noResponse he, exec_cmd_received he⟩
      · exact ⟨.inl ⟨hfree.noNew, _, rfl⟩, rfl, rfl⟩
    obtain ⟨howes, hrest, hreceived⟩ := haccepted
    exact ⟨howes.balance hfree hcmd hrest hreceived, howes.oneAtATime, .inl ⟨hreceived, .inl hfree.noResponse⟩⟩

/-! ## The form of every response -/

/-- A new response of the form keeps it, whatever else of the state is written beside the record. -/
theorem State.ResponsesFormed.answered {s t : State} (h : s.ResponsesFormed) {r : RspWord}
    (hform : responseForm r = true) (hrsp : t.rsp = some r) (hreceived : t.received = s.received) :
    t.ResponsesFormed where
  held := by
    rw [hrsp]
    rintro _ ⟨⟩
    exact hform
  taken := by rw [hreceived]; exact h.taken

theorem State.ResponsesFormed.congr {s t : State} (h : s.ResponsesFormed) (hrsp : t.rsp = s.rsp)
    (hreceived : t.received = s.received) : t.ResponsesFormed where
  held := by rw [hrsp]; exact h.held
  taken := by rw [hreceived]; exact h.taken

theorem handOver_responsesFormed {s : State} {r : RspWord} (h : s.ResponsesFormed) (hrsp : s.rsp = some r) :
    (handOver r s).ResponsesFormed := by
  cases hready : s.rspReady with
  | false =>
    rw [handOver_of_not_ready hready]
    exact h
  | true =>
    rw [handOver_of_ready hready]
    refine ⟨fun _ hr => (nomatch hr), fun r' hr' => ?_⟩
    rcases List.mem_append.mp hr' with htaken | hlast
    · exact h.taken r' htaken
    · rw [List.mem_singleton.mp hlast]
      exact h.held r hrsp

theorem collectPayload_responsesFormed {s : State} (h : s.ResponsesFormed) (job : Payload) :
    (collectPayload job s).ResponsesFormed := by
  rcases collectPayload_answer job s with ⟨-, hok⟩ | ⟨-, hkept⟩
  · exact h.answered (responseForm_ok 0#32) hok (collectPayload_received job s)
  · exact h.congr hkept (collectPayload_received job s)

/-- Every command answers OK with a VALUE, or a status with VALUE 0. -/
theorem exec_responsesFormed {i : Instr} {s t : State} (h : s.ResponsesFormed) (he : exec i s = .next t) :
    t.ResponsesFormed := by
  cases i with
  | new count =>
    rcases execNew_cases he with ⟨-, rfl⟩ | ⟨-, rfl⟩
    · exact h.answered (responseForm_error _) rfl rfl
    · exact collectPayload_responsesFormed h _
  | read width =>
    rcases execRead_cases he with ⟨-, rfl⟩ | ⟨-, rfl⟩ | ⟨-, -, -, rfl⟩ | ⟨-, -, -, code, -, rfl⟩
    · exact h.answered (responseForm_error _) rfl rfl
    · exact h.answered (responseForm_ok _) rfl rfl
    · exact h.answered (responseForm_error _) rfl rfl
    · exact h.answered (responseForm_ok _) rfl rfl
  | bitat index =>
    rcases execBitat_cases he with ⟨-, rfl⟩ | ⟨-, bit, -, rfl⟩
    · exact h.answered (responseForm_error _) rfl rfl
    · exact h.answered (responseForm_ok _) rfl rfl

/-- Settles O48: by what the step can do, each action keeping the form by its own lemma. -/
theorem stepKeepsTheResponseForm : Obligations.StepKeepsTheResponseForm := by
  intro s t h hs
  rcases step_cases hs with ⟨-, rfl⟩ | ⟨-, r, hrsp, rfl⟩ | ⟨-, -, job, -, rfl⟩ | ⟨-, -, rfl⟩ |
    ⟨-, w, rest, -, ⟨i, -, he⟩ | ⟨why, -, rfl⟩⟩
  · exact ⟨fun _ hr => (nomatch hr), h.taken⟩
  · exact handOver_responsesFormed h hrsp
  · exact collectPayload_responsesFormed h job
  · exact h
  · exact exec_responsesFormed (s := acceptCommand rest s) (h.congr rfl rfl) he
  · exact h.answered (responseForm_error _) rfl rfl

end Sys2Proof.Machine
end

section
/-! The opcode table's match and mask (spec/opcode_table.json): the mask keeps a word's OP and RSV, so a match is RSV
zero with the row's OP. -/

namespace Sys2Proof

theorem opField_and_mask (w : CmdWord) : opField (w &&& 0xFFFFFFFF00000000#64) = opField w := by
  have hmask : BitVec.extractLsb' 60 4 0xFFFFFFFF00000000#64 = BitVec.allOnes 4 := by decide
  rw [opField, BitVec.extractLsb'_and, hmask, BitVec.and_allOnes, opField]

theorem rsvField_and_mask (w : CmdWord) : rsvField (w &&& 0xFFFFFFFF00000000#64) = rsvField w := by
  have hmask : BitVec.extractLsb' 32 28 0xFFFFFFFF00000000#64 = BitVec.allOnes 28 := by decide
  rw [rsvField, BitVec.extractLsb'_and, hmask, BitVec.and_allOnes, rsvField]

theorem argField_and_mask (w : CmdWord) : argField (w &&& 0xFFFFFFFF00000000#64) = 0#32 := by
  have hmask : BitVec.extractLsb' 0 32 0xFFFFFFFF00000000#64 = 0#32 := by decide
  rw [argField, BitVec.extractLsb'_and, hmask, BitVec.and_zero]

theorem and_mask_eq_iff (w : CmdWord) (op : BitVec 4) :
    w &&& 0xFFFFFFFF00000000#64 = packCommand op 0#32 ↔ rsvField w = 0#28 ∧ opField w = op := by
  constructor
  · intro h
    rw [← rsvField_and_mask w, ← opField_and_mask w, h]
    exact ⟨rsvField_packCommand op 0#32, opField_packCommand op 0#32⟩
  · rintro ⟨hrsv, rfl⟩
    rw [← packCommand_fields ((rsvField_and_mask w).trans hrsv), opField_and_mask, argField_and_mask]

/-! Each row's command comes from RSV zero and the row's OP alone (R52, R61). -/

theorem decode_new_iff (w : CmdWord) :
    (∃ count, decode w = .command (.new count)) ↔ rsvField w = 0#28 ∧ opField w = opNew := by
  refine ⟨fun ⟨count, h⟩ => ?_, fun ⟨hrsv, hop⟩ => ⟨_, decode_of_opNew hrsv hop⟩⟩
  obtain ⟨hrsv, ⟨hop, -⟩ | ⟨-, ⟨⟩⟩ | ⟨-, ⟨⟩⟩⟩ := decode_command_cases h
  exact ⟨hrsv, hop⟩

theorem decode_read_iff (w : CmdWord) :
    (∃ width, decode w = .command (.read width)) ↔ rsvField w = 0#28 ∧ opField w = opRead := by
  refine ⟨fun ⟨width, h⟩ => ?_, fun ⟨hrsv, hop⟩ => ⟨_, decode_of_opRead hrsv hop⟩⟩
  obtain ⟨hrsv, ⟨-, ⟨⟩⟩ | ⟨hop, -⟩ | ⟨-, ⟨⟩⟩⟩ := decode_command_cases h
  exact ⟨hrsv, hop⟩

theorem decode_bitat_iff (w : CmdWord) :
    (∃ index, decode w = .command (.bitat index)) ↔ rsvField w = 0#28 ∧ opField w = opBitat := by
  refine ⟨fun ⟨index, h⟩ => ?_, fun ⟨hrsv, hop⟩ => ⟨_, decode_of_opBitat hrsv hop⟩⟩
  obtain ⟨hrsv, ⟨-, ⟨⟩⟩ | ⟨-, ⟨⟩⟩ | ⟨hop, -⟩⟩ := decode_command_cases h
  exact ⟨hrsv, hop⟩

/-- Settles O6: each row's match is its OP packed with ARG 0, so by `and_mask_eq_iff` it picks RSV zero and that OP. -/
theorem tableMasksSelectTheCommand : Obligations.TableMasksSelectTheCommand := by
  intro w
  have hnew : 0x1000000000000000#64 = packCommand opNew 0#32 := by decide
  have hread : 0x2000000000000000#64 = packCommand opRead 0#32 := by decide
  have hbitat : 0x3000000000000000#64 = packCommand opBitat 0#32 := by decide
  rw [hnew, hread, hbitat]
  exact ⟨(and_mask_eq_iff w opNew).trans (decode_new_iff w).symm,
    (and_mask_eq_iff w opRead).trans (decode_read_iff w).symm,
    (and_mask_eq_iff w opBitat).trans (decode_bitat_iff w).symm⟩

end Sys2Proof
end

section
/-! NEW's word, its capacity check and the reader it constructs, and what a drained reader answers
(spec/40_construction.md R70, R71, R72). -/

namespace Sys2Proof.Machine

theorem responseWord_capacityExceeded_zero : responseWord .capacityExceeded 0#32 = 0x5000000000000000#64 := by decide

theorem responseWord_exhausted_zero : responseWord .exhausted 0#32 = 0x1000000000000000#64 := by decide

theorem responseWord_indexOutOfRange_zero : responseWord .indexOutOfRange 0#32 = 0x3000000000000000#64 := by decide

theorem decode_newWord (arg : BitVec 32) : decode (0x10000000#32 ++ arg) = .command (.new arg.toNat) := by
  have hword : 0x10000000#32 ++ arg = packCommand opNew arg := rfl
  rw [hword, decode_of_opNew (rsvField_packCommand opNew arg) (opField_packCommand opNew arg), argField_packCommand]

/-- A NEW beyond the capacity is refused (R72). -/
theorem execNew_of_exceeds {count : Nat} {s : State} (hover : s.cfg.maxBytes < count) :
    execNew count s = .next (raise .capacityExceeded s) := by
  rw [execNew, if_pos hover]

/-- READ 0 answers OK 0 in every state (R77). -/
theorem execRead_zero (s : State) : execRead 0 s = .next (respond .ok 0#32 s) := by
  unfold execRead
  rw [if_neg (by omega), if_pos rfl]

/-- BITAT of an index past the last bit (R89). -/
theorem execBitat_outside {index : Nat} {s : State} (h : s.n * 8 ≤ index) :
    execBitat index s = .next (raise .indexOutOfRange s) := by
  rw [execBitat, if_pos h]

/-- Logical byte j of the constructed buffer is input byte N-1-j (R70). -/
theorem read_ofBytes_reverse (contents : List Byte) {j : Nat} (hj : j < contents.length) :
    Memory.read (Memory.ofBytes contents.reverse) j = contents[contents.length - 1 - j]? := by
  rw [Memory.read_ofBytes, List.getElem?_reverse hj]

/-- The constructed buffer has no byte outside 0..N-1 (R35). -/
theorem read_ofBytes_reverse_eq_none (contents : List Byte) {j : Nat} (hj : contents.length ≤ j) :
    Memory.read (Memory.ofBytes contents.reverse) j = none := by
  rw [Memory.read_ofBytes, List.getElem?_eq_none (by simpa using hj)]

/-- Settles O22: the word is NEW's OP packed with ARG; NEW is refused, or completes over the reversed payload. -/
theorem newConstructsTheReader : Obligations.NewConstructsTheReader := by
  refine ⟨decode_newWord, fun s count hover => ?_, fun s contents rest hfits hdin => ?_⟩
  · rw [← responseWord_capacityExceeded_zero]
    exact execNew_of_exceeds hover
  · exact ⟨_, execNew_of_offered hfits hdin, fun _ => read_ofBytes_reverse contents,
      fun _ => read_ofBytes_reverse_eq_none contents⟩

/-- Settles O23: a NEW of nothing is always fully offered, and with cursor -1 and N = 0 no bit remains or is named. -/
theorem newOfNothingIsDrained : Obligations.NewOfNothingIsDrained := by
  intro s
  refine ⟨_, execNew_of_offered (contents := []) (Nat.zero_le _) (List.nil_append s.din).symm, rfl, rfl, rfl, rfl,
    fun w hlow hhigh => ?_, ?_, fun k => ?_⟩
  · rw [← responseWord_exhausted_zero]
    exact execRead_exhausted hlow hhigh (by simp only [List.length_nil]; omega)
  · rw [← responseWord_ok_zero]
    exact execRead_zero _
  · rw [← responseWord_indexOutOfRange_zero]
    exact execBitat_outside (by simp)

end Sys2Proof.Machine
end

section
/-! READs in a row give the codes of the stream, and the reader that NEW leaves gives its bytes back in order
(spec/40_construction.md R74, spec/41_read.md R81). -/

namespace Sys2Proof.Machine

/-- The state after a READ of `w` bits that are there: R81's code answered, the cursor `w` lower (R80). -/
def State.afterRead (w : Nat) (s : State) : State :=
  respond .ok (BitVec.ofNat 32 ((s.stream >>> s.consumed.toNat) % 2 ^ w)) { s with cursor := s.cursor - w }

theorem State.afterRead_remaining (w : Nat) (s : State) : (s.afterRead w).remaining = s.remaining - w := by
  simp only [State.afterRead, State.remaining, respond_cursor]
  omega

theorem State.afterRead_consumed (w : Nat) (s : State) : (s.afterRead w).consumed = s.consumed + w := by
  simp only [State.afterRead, State.consumed, respond_cursor, respond_n]
  omega

theorem State.afterRead_stream (w : Nat) (s : State) : (s.afterRead w).stream = s.stream := rfl

/-- A READ of a width no larger than what remains, 0 included, answers OK with R81's code and moves the cursor by it. -/
theorem execRead_of_remaining {s : State} (h : s.ReaderInv) {w : Nat} (hw : w ≤ s.cfg.maxWidth)
    (hr : (w : Int) ≤ s.remaining) : execRead w s = .next (s.afterRead w) := by
  cases w with
  | zero => simpa [State.afterRead, Nat.mod_one] using execRead_zero s
  | succ w => exact execRead_code (Nat.succ_pos w) hw hr (assembleCode_eq h.covers hr h.cursorHigh)

/-- R81's code fits VALUE, since a width is at most 32 (R8). -/
theorem toNat_ofNat_code {w : Nat} (hw : w ≤ 32) (l : Nat) : (BitVec.ofNat 32 (l % 2 ^ w)).toNat = l % 2 ^ w := by
  have hlt : l % 2 ^ w < 2 ^ 32 := (Nat.mod_lt l (Nat.two_pow_pos w)).trans_le (Nat.pow_le_pow_right two_pos hw)
  rw [BitVec.toNat_ofNat, Nat.mod_eq_of_lt hlt]

/-- A READ of bits that are there gives its code, and the READs after it go on from the state it leaves. -/
theorem readCodes_cons_of_remaining {s : State} (h : s.ReaderInv) {w : Nat} (hw : w ≤ s.cfg.maxWidth)
    (hr : (w : Int) ≤ s.remaining) (rest : List Nat) :
    readCodes (w :: rest) s = (readCodes rest (s.afterRead w)).map fun out =>
      ((s.stream >>> s.consumed.toNat) % 2 ^ w :: out.1, out.2) := by
  have hexec : exec (.read w) s = .next (s.afterRead w) := execRead_of_remaining h hw hr
  obtain ⟨-, hmax, -⟩ := h.legal
  simp only [readCodes, hexec, State.afterRead, respond_rsp, statusField_responseWord, valueField_responseWord,
    if_true, toNat_ofNat_code (hw.trans hmax)]

/-- READs of widths that together are no larger than what remains give the stream's codes, one after another, and
write the cursor and the response alone. -/
theorem readCodes_of_remaining {widths : List Nat} {s : State} (h : s.ReaderInv)
    (hw : ∀ w ∈ widths, w ≤ s.cfg.maxWidth) (hr : (widths.sum : Int) ≤ s.remaining) :
    ∃ rsp, readCodes widths s = some (streamCodes s.stream s.consumed.toNat widths,
      { s with cursor := s.cursor - widths.sum, rsp := rsp }) := by
  induction widths generalizing s with
  | nil => exact ⟨s.rsp, by simp [readCodes, streamCodes]⟩
  | cons w rest ih =>
    rw [List.forall_mem_cons] at hw
    obtain ⟨hwidth, hwidths⟩ := hw
    rw [List.sum_cons, Nat.cast_add] at hr
    have hfits : (w : Int) ≤ s.remaining := by omega
    have hinv : (s.afterRead w).ReaderInv := exec_readerInv (i := .read w) h (execRead_of_remaining h hwidth hfits)
    have hconsumed : (s.afterRead w).consumed.toNat = s.consumed.toNat + w := by
      have hhigh := h.cursorHigh
      rw [State.afterRead_consumed, State.consumed]
      omega
    obtain ⟨rsp, hrest⟩ := ih hinv hwidths (by rw [State.afterRead_remaining]; omega)
    refine ⟨rsp, ?_⟩
    rw [readCodes_cons_of_remaining h hwidth hfits, hrest, hconsumed, State.afterRead_stream, Option.map_some,
      streamCodes, List.sum_cons, Nat.cast_add, ← sub_sub]
    rfl

theorem littleEndian_cons_mod (b : Byte) (rest : List Byte) : littleEndian (b :: rest) % 2 ^ 8 = b.toNat := by
  rw [littleEndian, Nat.add_mul_mod_self_left, Nat.mod_eq_of_lt b.isLt]

theorem littleEndian_cons_shiftRight (b : Byte) (rest : List Byte) :
    littleEndian (b :: rest) >>> 8 = littleEndian rest := by
  rw [littleEndian, Nat.shiftRight_eq_div_pow, Nat.add_mul_div_left _ _ (Nat.two_pow_pos 8),
    Nat.div_eq_of_lt b.isLt, Nat.zero_add]

/-- Eight bits at a time, a stream whose unread part is the integer of `bytes` gives those bytes (R25). -/
theorem streamCodes_replicate_eight {l c : Nat} {bytes : List Byte} (h : l >>> c = littleEndian bytes) :
    streamCodes l c (List.replicate bytes.length 8) = bytes.map BitVec.toNat := by
  induction bytes generalizing c with
  | nil => rfl
  | cons b rest ih =>
    have hrest : l >>> (c + 8) = littleEndian rest := by
      rw [Nat.shiftRight_add, h, littleEndian_cons_shiftRight]
    rw [List.length_cons, List.replicate_succ, streamCodes, h, littleEndian_cons_mod, ih hrest, List.map_cons]

/-- A NEW within capacity whose whole payload is offered leaves a reader that meets the invariant, with nothing consumed
and the payload's integer as its stream. -/
theorem execNew_reader {contents rest : List Byte} {s : State} (hlegal : s.cfg.Legal)
    (hm : contents.length ≤ s.cfg.maxBytes) (hd : s.din = contents ++ rest) :
    ∃ t, exec (.new contents.length) s = .next t ∧ t.ReaderInv ∧ t.cfg = s.cfg ∧ t.n = contents.length ∧
      t.cursor = (contents.length : Int) * 8 - 1 ∧ t.consumed = 0 ∧ t.stream = littleEndian contents := by
  have hinv := construct_readerInv (s := { s with din := rest }) hlegal hm
  have hstream := congrArg littleEndian (construct_contents { s with din := rest } contents)
  exact ⟨_, execNew_of_offered hm hd, hinv.congr rfl rfl rfl rfl, rfl, rfl, rfl, sub_self _, hstream⟩

/-- Settles O25: NEW leaves a reader with nothing consumed and the input's integer as its stream, so its bits are that
integer's bits and its codes of width 8 the input's bytes. -/
theorem afterNewTheBytesComeBackInOrder : Obligations.AfterNewTheBytesComeBackInOrder := by
  intro s contents rest hlegal hfits hdin
  obtain ⟨t, hexec, hinv, hcfg, hn, hcursor, hconsumed, hstream⟩ := execNew_reader hlegal hfits hdin
  have hremaining : t.remaining = (contents.length : Int) * 8 := by rw [State.remaining, hcursor]; omega
  refine ⟨t, hexec, hremaining, ?_, fun i hi => ?_, fun hwidth => ?_⟩
  · rw [State.active, decide_eq_true_iff, hcursor]
    omega
  · rw [bitAt_eq_stream hinv.covers (hn.symm ▸ hi), hstream, hn]
  · have hwidths : ∀ w ∈ List.replicate contents.length 8, w ≤ t.cfg.maxWidth := by
      intro w hw
      rw [List.eq_of_mem_replicate hw, hcfg]
      exact hwidth
    have hsum : (((List.replicate contents.length 8).sum : Nat) : Int) ≤ t.remaining := by
      rw [hremaining]
      simp
    obtain ⟨rsp, hcodes⟩ := readCodes_of_remaining hinv hwidths hsum
    rw [hconsumed, Int.toNat_zero, streamCodes_replicate_eight (bytes := contents) hstream] at hcodes
    exact ⟨_, hcodes⟩

end Sys2Proof.Machine
end

section
/-! READ's outcomes by the width and what remains, and the stream bits that a code is made of (spec/41_read.md R76 to
R81, R84). -/

namespace Sys2Proof.Machine

theorem responseWord_invalidWidth_zero : responseWord .invalidWidth 0#32 = 0x2000000000000000#64 := by decide

theorem State.wouldExhaust_iff {s : State} {w : Int} (h1 : 1 ≤ w) : s.wouldExhaust w = true ↔ s.remaining < w := by
  simp only [State.wouldExhaust, State.remaining, Bool.and_eq_true, decide_eq_true_iff]
  omega

/-- A READ of more bits than remain answers EXHAUSTED with VALUE 0 and changes nothing else (R78), in every state. -/
theorem execRead_of_remaining_lt {s : State} {w : Int} (h1 : 1 ≤ w) (hw : w ≤ s.cfg.maxWidth)
    (hx : s.remaining < w) : execRead w s = .next { s with rsp := some 0x1000000000000000#64 } := by
  rw [State.remaining] at hx
  rw [execRead_exhausted h1 hw (by omega), raise_eq, respond, responseWord_exhausted_zero]

/-- The bit `k` places below the cursor is the stream's `k`-th unread bit (R79, R81). -/
theorem State.ReaderInv.bitAt_below_cursor {s : State} (h : s.ReaderInv) {k : Nat} (hk : (k : Int) ≤ s.cursor) :
    bitAt s (s.cursor - k) = some (BitVec.ofBool (s.stream.testBit (s.consumed.toNat + k))) := by
  have hhigh := h.cursorHigh
  obtain ⟨i, hi⟩ : ∃ i : Nat, s.cursor - k = i := Int.eq_ofNat_of_zero_le (by omega)
  have hbit : s.n * 8 - 1 - i = s.consumed.toNat + k := by rw [State.consumed]; omega
  rw [hi, bitAt_eq_stream h.covers (by omega), hbit]

/-- An unread bit of the stream is a bit of the input byte that R25 names. -/
theorem State.ReaderInv.stream_testBit_unread {s : State} (h : s.ReaderInv) {k : Nat} (hk : (k : Int) ≤ s.cursor) :
    ∃ b, s.contents[(s.consumed.toNat + k) / 8]? = some b ∧
      s.stream.testBit (s.consumed.toNat + k) = b.getLsbD ((s.consumed.toNat + k) % 8) := by
  have hhigh := h.cursorHigh
  have hlt : (s.consumed.toNat + k) / 8 < s.contents.length := by
    rw [contents_length h.covers, State.consumed]
    omega
  refine ⟨_, List.getElem?_eq_getElem hlt, ?_⟩
  rw [State.stream, littleEndian_testBit, List.getElem?_eq_getElem hlt, Option.getD_some]

/-- Bit `k` of the code of `w` bits is the stream's `k`-th unread bit (R81). -/
theorem testBit_code (l c : Nat) {w k : Nat} (hk : k < w) : ((l >>> c) % 2 ^ w).testBit k = l.testBit (c + k) := by
  rw [Nat.testBit_mod_two_pow, Nat.testBit_shiftRight, decide_eq_true hk, Bool.true_and]

/-- The low `w` bits of a number, each at its place value. -/
theorem mod_two_pow_eq_sum_testBit (x w : Nat) :
    x % 2 ^ w = ∑ k ∈ Finset.range w, (x.testBit k).toNat * 2 ^ k := by
  induction w with
  | zero => simp [Nat.mod_one]
  | succ w ih => rw [Finset.sum_range_succ, ← ih, Nat.mod_pow_succ, Nat.toNat_testBit, Nat.mul_comm]

/-- Settles O26: the width check comes before every other. -/
theorem readOfInvalidWidthChangesNothing : Obligations.ReadOfInvalidWidthChangesNothing := by
  intro s w h
  rw [← responseWord_invalidWidth_zero]
  exact execRead_invalid h

/-- Settles O27: a width of 0 passes the width check and reads nothing. -/
theorem readOfWidthZeroReturnsZero : Obligations.ReadOfWidthZeroReturnsZero := by
  intro s
  rw [← responseWord_ok_zero]
  exact execRead_zero s

/-- Settles O28: the cursor falls below -1 exactly when the width is larger than what remains; a width that fits is
answered by `execRead_of_remaining`. -/
theorem readExhaustsExactlyBeyondTheRemainingBits : Obligations.ReadExhaustsExactlyBeyondTheRemainingBits := by
  intro s w h h1 hw
  refine ⟨State.wouldExhaust_iff h1, execRead_of_remaining_lt h1 hw, fun hr => ?_⟩
  obtain ⟨v, rfl⟩ := Int.eq_ofNat_of_zero_le (Int.le_trans Int.one_nonneg h1)
  exact ⟨_, _, execRead_of_remaining h (by exact_mod_cast hw) hr, rfl, statusField_responseWord _ _⟩

/-- Settles O29: the state that `execRead_of_remaining` gives, its code's bits read off the input bytes. -/
theorem readReturnsTheStreamBits : Obligations.ReadReturnsTheStreamBits := by
  intro s w h _ hw hr
  obtain ⟨-, hmax, -⟩ := h.legal
  refine ⟨_, _, rfl, execRead_of_remaining h hw hr, rfl, toNat_ofNat_code (hw.trans hmax) _,
    State.afterRead_consumed w s, ?_, ?_, fun k hk => ?_⟩
  · have hlow : -1 ≤ s.cursor - w := by rw [State.remaining] at hr; omega
    exact hlow
  · exact (add_sub_cancel_right (s.cursor - w) 1).symm
  · obtain ⟨b, hb, hbit⟩ := h.stream_testBit_unread (k := k) (by rw [State.remaining] at hr; omega)
    exact ⟨b, hb, (testBit_code _ _ hk).trans hbit⟩

/-- Settles O30: the code is the sum of its bits, and each is the bit that many places below the cursor. -/
theorem readAssemblesFromTheCursorUpward : Obligations.ReadAssemblesFromTheCursorUpward := by
  intro s w h _ hw hr
  obtain ⟨-, hmax, -⟩ := h.legal
  have hbit : ∀ k : Nat, k < w →
      bitAt s (s.cursor - k) = some (BitVec.ofBool (s.stream.testBit (s.consumed.toNat + k))) := by
    intro k hk
    exact h.bitAt_below_cursor (by rw [State.remaining] at hr; omega)
  refine ⟨_, _, execRead_of_remaining h hw hr, rfl, statusField_responseWord _ _, fun k hk => ⟨_, hbit k hk⟩, ?_, ?_⟩
  · rw [valueField_responseWord, toNat_ofNat_code (hw.trans hmax), mod_two_pow_eq_sum_testBit]
    refine Finset.sum_congr rfl fun k hk => ?_
    rw [hbit k (Finset.mem_range.mp hk), Option.getD_some, BitVec.toNat_ofBool, Nat.testBit_shiftRight]
  · rw [valueField_responseWord, toNat_ofNat_code (hw.trans hmax)]
    exact Nat.mod_lt _ (Nat.two_pow_pos w)

/-- Settles O31: an index from firstBit to the cursor is not negative, so it has a bit; and every command answers. -/
theorem readNeverLeavesTheBuffer : Obligations.ReadNeverLeavesTheBuffer := by
  intro s w h
  refine ⟨fun _ hx i hlow hhigh => ?_, fun r hfault => ?_⟩
  · have hcursor := h.cursorHigh
    have hi : i = s.cursor - (s.cursor - i).toNat := by omega
    refine ⟨by omega, by omega, ?_⟩
    rw [hi, h.bitAt_below_cursor (by omega), Option.isSome_some]
  · obtain ⟨t, ht⟩ := exec_next h (.read w)
    rw [ht] at hfault
    cases hfault

end Sys2Proof.Machine
end

section
/-! READ rests on the reader alone, and what remains never grows without a NEW (spec/41_read.md R82). -/

namespace Sys2Proof.Machine

/-- READ reads the parameters, the buffer, N and the cursor alone (R82). -/
theorem execRead_congr {s s' t : State} {w : Int} (hcfg : s'.cfg = s.cfg) (hb : s'.buffer = s.buffer)
    (hn : s'.n = s.n) (hc : s'.cursor = s.cursor) (h : execRead w s = .next t) :
    execRead w s' = .next { s' with cursor := t.cursor, rsp := t.rsp } := by
  have hcode : ∀ v, assembleCode s' v = assembleCode s v := fun v => by
    rw [assembleCode, assembleCode, hc, assembleFrom_congr hb hn]
  rcases execRead_cases h with ⟨hw, rfl⟩ | ⟨rfl, rfl⟩ | ⟨h1, hw, hx, rfl⟩ | ⟨h1, hw, hx, code, hassemble, rfl⟩
  · rw [execRead_invalid (hcfg ▸ hw)]
    simp [respond, ← hc]
  · rw [execRead_zero]
    simp [respond, ← hc]
  · rw [execRead_exhausted h1 (hcfg ▸ hw) (hc ▸ hx)]
    simp [respond, ← hc]
  · obtain ⟨v, rfl⟩ := Int.eq_ofNat_of_zero_le (Int.le_trans Int.one_nonneg h1)
    rw [execRead_code (by omega) (by rw [hcfg]; omega) (by rw [hc]; omega) ((hcode v).trans hassemble), ← hc]
    rfl

/-- Commands that are no NEW never raise what remains, so a READ that would exhaust before them exhausts after them
(R82). -/
theorem execRead_exhausts_after {between : List Instr} {s t : State} {v : Int}
    (hno : between.all (fun i => !isNew i) = true) (h : execAll between s = .next t) (h1 : 1 ≤ v)
    (hv : v ≤ s.cfg.maxWidth) (hx : s.remaining < v) :
    execRead v t = .next { t with rsp := some 0x1000000000000000#64 } := by
  obtain ⟨cursor, rsp, rfl, hle⟩ := execAll_notNew hno h
  exact execRead_of_remaining_lt h1 hv (lt_of_le_of_lt (Int.add_le_add_right hle 1) hx)

/-- Settles O33: READ by `execRead_congr`; an exhausted READ leaves the reader as it was; and what remains never grows
without a NEW. -/
theorem readOutcomeRestsOnCursorAndWidth : Obligations.ReadOutcomeRestsOnCursorAndWidth := by
  refine ⟨fun s s' t w hcfg hb hn hc h => execRead_congr hcfg hb hn hc h, ?_, ?_, ?_⟩
  · intro s t w v hinv h1 hw hx hexec _ hv hr
    obtain rfl : { s with rsp := some 0x1000000000000000#64 } = t := by
      simpa [exec, execRead_of_remaining_lt h1 hw hx] using hexec
    have hinv' : State.ReaderInv { s with rsp := some 0x1000000000000000#64 } := hinv.congr rfl rfl rfl rfl
    exact execRead_of_remaining hinv' hv hr
  · intro s t between w v h1 hw hx hno hall hle hv
    refine execRead_exhausts_after (between := .read w :: between) ?_ hall (h1.trans hle) hv (hx.trans_le hle)
    simpa [isNew] using hno
  · intro s t between v hdrained hno hall h1 hv
    refine execRead_exhausts_after hno hall h1 hv ?_
    have hcursor : s.cursor = -1 := of_decide_eq_true hdrained
    rw [State.remaining]
    omega

end Sys2Proof.Machine
end

section
/-! A whole reading after NEW: where it exhausts, and that its codes are the input (spec/41_read.md R83, R85). -/

namespace Sys2Proof.Machine

/-- Settles O34: N*8 bits remain after NEW, and READs that fit in them leave that many less. -/
theorem exhaustionBoundary : Obligations.ExhaustionBoundary := by
  intro s contents rest widths hlegal hfits hdin hwidths
  obtain ⟨t, hexec, hinv, hcfg, -, hcursor, -, -⟩ := execNew_reader hlegal hfits hdin
  have hremaining : t.remaining = (contents.length : Int) * 8 := by rw [State.remaining, hcursor]; omega
  refine ⟨t, hexec, fun hsum => ?_, fun before w after hsplit hsum hover => ?_⟩
  · obtain ⟨rsp, hcodes⟩ := readCodes_of_remaining hinv (fun w hw => hcfg ▸ (hwidths w hw).2)
      (by rw [hremaining]; omega)
    refine ⟨_, _, hcodes, fun hall => ?_⟩
    have hdrained : t.cursor - (widths.sum : Int) = -1 := by rw [hcursor]; omega
    obtain ⟨hone, -⟩ := hinv.legal
    refine ⟨hdrained, execRead_of_remaining_lt le_rfl (Nat.one_le_cast.mpr hone) ?_⟩
    simp only [State.remaining, hdrained]
    omega
  · subst hsplit
    rw [List.forall_mem_append, List.forall_mem_cons] at hwidths
    obtain ⟨hbefore, ⟨h1, hw⟩, -⟩ := hwidths
    obtain ⟨rsp, hcodes⟩ := readCodes_of_remaining hinv (fun v hv => hcfg ▸ (hbefore v hv).2)
      (by rw [hremaining]; omega)
    refine ⟨_, _, hcodes, execRead_of_remaining_lt (Nat.one_le_cast.mpr h1) (Nat.cast_le.mpr (hcfg ▸ hw)) ?_⟩
    simp only [State.remaining, hcursor]
    omega

/-- Codes of the stream put back above one another are its low bits (R85). -/
theorem reassemble_streamCodes (l c : Nat) (widths : List Nat) :
    reassemble widths (streamCodes l c widths) = (l >>> c) % 2 ^ widths.sum := by
  induction widths generalizing c with
  | nil => simp [reassemble, Nat.mod_one]
  | cons w rest ih =>
    rw [streamCodes, reassemble, ih, List.sum_cons, pow_add, Nat.mod_mul, Nat.shiftRight_add,
      Nat.shiftRight_eq_div_pow (l >>> c)]

/-- Settles O35: the codes are the stream's, nothing is consumed before them, and L has no more than N*8 bits. -/
theorem codesReassembleTheInput : Obligations.CodesReassembleTheInput := by
  intro s contents rest widths hlegal hfits hdin hwidths hsum
  obtain ⟨t, hexec, hinv, hcfg, -, hcursor, hconsumed, hstream⟩ := execNew_reader hlegal hfits hdin
  obtain ⟨rsp, hcodes⟩ := readCodes_of_remaining hinv (fun w hw => hcfg ▸ hwidths w hw)
    (by rw [State.remaining, hcursor]; omega)
  refine ⟨t, _, _, hexec, hcodes, ?_⟩
  rw [reassemble_streamCodes, hconsumed, Int.toNat_zero, Nat.shiftRight_zero, hstream, hsum,
    Nat.mod_eq_of_lt (littleEndian_lt contents)]

end Sys2Proof.Machine
end

section
/-! A run of the machine over offered READ words (spec/20_memory.md R46, spec/30_encoding.md R57, spec/41_read.md R81). -/

namespace Sys2Proof.Machine

/-- A READ word that ARG can hold decodes to its READ. -/
theorem decode_encode_read {w : Nat} (hw : w ≤ 32) : decode (encode (.read w)) = .command (.read w) :=
  decodeOfEncode _ (by simp [Instr.wellFormed]; omega)

/-- The state after a READ of `w` bits that are there has been accepted, `rest` left on CMD, and the host has taken its
answer. -/
def State.afterTakenRead (w : Nat) (rest : List CmdWord) (s : State) : State :=
  { s with
    cmd := rest
    cursor := s.cursor - w
    received := s.received ++ [responseWord .ok (BitVec.ofNat 32 ((s.stream >>> s.consumed.toNat) % 2 ^ w))] }

theorem State.ReaderInv.afterTakenRead {s : State} (h : s.ReaderInv) {w : Nat} (hr : (w : Int) ≤ s.remaining)
    (rest : List CmdWord) : (s.afterTakenRead w rest).ReaderInv := by
  rw [State.remaining] at hr
  have hlowered : State.ReaderInv { s with cursor := s.cursor - w } := h.lowerCursor (by omega) (by omega)
  exact hlowered.congr rfl rfl rfl rfl

theorem State.Free.afterTakenRead {s : State} (h : s.Free) (w : Nat) (rest : List CmdWord) :
    (s.afterTakenRead w rest).Free := ⟨h.released, h.noResponse, h.noNew⟩

theorem State.afterTakenRead_remaining (w : Nat) (rest : List CmdWord) (s : State) :
    (s.afterTakenRead w rest).remaining = s.remaining - w := State.afterRead_remaining w s

theorem State.ReaderInv.afterTakenRead_consumed {s : State} (h : s.ReaderInv) (w : Nat) (rest : List CmdWord) :
    (s.afterTakenRead w rest).consumed.toNat = s.consumed.toNat + w := by
  have hconsumed : (s.afterTakenRead w rest).consumed = s.consumed + w := State.afterRead_consumed w s
  have hhigh := h.cursorHigh
  rw [hconsumed, State.consumed]
  omega

/-- A free block whose host is ready accepts and answers a READ that fits in one step, and hands the answer over in
another. -/
theorem runSteps_read {s : State} (h : s.ReaderInv) (hfree : s.Free) (hready : s.rspReady = true) {w : Nat}
    (hw : w ≤ s.cfg.maxWidth) (hr : (w : Int) ≤ s.remaining) {rest : List CmdWord}
    (hcmd : s.cmd = encode (.read w) :: rest) (k : Nat) :
    runSteps (k + 2) s = runSteps k (s.afterTakenRead w rest) := by
  obtain ⟨-, hmax, -⟩ := h.legal
  have hread : step s = .next ((acceptCommand rest s).afterRead w) :=
    (step_of_command hfree hcmd (decode_encode_read (hw.trans hmax))).trans
      (execRead_of_remaining (h.acceptCommand rest) hw hr)
  have hanswer := step_of_response (s := (acceptCommand rest s).afterRead w) hfree.released rfl
  rw [handOver_of_ready (s := (acceptCommand rest s).afterRead w) hready] at hanswer
  rw [runSteps_of_next hread, runSteps_of_next hanswer, State.afterTakenRead, hfree.noResponse]
  rfl

/-- Settles O37: by induction on the widths, two steps a READ by `runSteps_read`; the state those leave is again free,
ready and within the invariant. -/
theorem offeredReadsRunToTheirCodes : Obligations.OfferedReadsRunToTheirCodes := by
  intro s widths rest hinv hfree hready hwidths hr hcmd
  replace hinv := hinv.reader
  induction widths generalizing s with
  | nil =>
    rw [List.map_nil, List.nil_append] at hcmd
    simp [runSteps, streamCodes, ← hcmd]
  | cons w widths ih =>
    rw [List.forall_mem_cons] at hwidths
    obtain ⟨⟨-, hw⟩, hwidths⟩ := hwidths
    rw [List.sum_cons, Nat.cast_add] at hr
    have hfits : (w : Int) ≤ s.remaining := by omega
    rw [List.map_cons, List.cons_append] at hcmd
    rw [List.length_cons, Nat.mul_succ, runSteps_read hinv hfree hready hw hfits hcmd,
      ih (s.afterTakenRead w _) (hfree.afterTakenRead w _) hready hwidths
        (by rw [State.afterTakenRead_remaining]; omega) rfl (hinv.afterTakenRead hfits _),
      hinv.afterTakenRead_consumed, streamCodes, List.map_cons, List.append_cons, List.sum_cons, Nat.cast_add,
      ← sub_sub]
    rfl

end Sys2Proof.Machine
end

section
/-! No step and no history stops (spec/41_read.md R84, spec/60_exceptions.md R92, R97). -/

namespace Sys2Proof.Machine

/-- In a state that meets the reader's invariant the block's step gives a next state: only a command could stop. -/
theorem step_next {s : State} (h : s.ReaderInv) : ∃ t, step s = .next t := by
  rw [step]
  cases phase s with
  | accepting w rest =>
    dsimp only
    cases decode w with
    | command i => exact exec_next (h.acceptCommand rest) i
    | illegal why => exact ⟨_, rfl⟩
  | inReset => exact ⟨_, rfl⟩
  | responding r => exact ⟨_, rfl⟩
  | collecting job => exact ⟨_, rfl⟩
  | idle => exact ⟨_, rfl⟩

theorem applyEvent_next {s : State} (h : s.ReaderInv) (e : Event) : ∃ t, applyEvent e s = .next t := by
  cases e with
  | host a => exact ⟨hostAct a s, rfl⟩
  | block => exact step_next h

/-- Settles O46: by induction on the history, each event giving a next state that keeps the invariant. -/
theorem noHistoryStops : Obligations.NoHistoryStops := by
  intro events
  induction events with
  | nil => exact fun s _ => ⟨s, runEvents_nil s⟩
  | cons e rest ih =>
    intro s h
    obtain ⟨t, ht⟩ := applyEvent_next h.reader e
    rw [runEvents_cons_of_next ht]
    exact ih t (applyEvent_inv h ht)

end Sys2Proof.Machine
end

section
/-! BITAT answers the bit that the index names and rests on the buffer and N alone (spec/42_bitat.md R88, R90, R91). -/

namespace Sys2Proof.Machine

theorem responseWord_ok_bit (bit : Bool) :
    responseWord .ok ((BitVec.ofBool bit).setWidth 32) =
      if bit then 0x0000000000000001#64 else 0x0000000000000000#64 := by
  cases bit <;> decide

/-- BITAT of an index whose bit is there answers OK with the bit zero-extended (R88). -/
theorem execBitat_of_bit {index : Nat} {s : State} {bit : BitVec 1} (hk : index < s.n * 8)
    (hbit : bitAt s index = some bit) : execBitat index s = .next (respond .ok (bit.setWidth 32) s) := by
  rw [execBitat, if_neg (by omega), hbit]

/-- BITAT reads the buffer and N alone (R90): states that share them get the same answer, and nothing else changes. -/
theorem execBitat_congr {s s' t : State} {index : Nat} (hb : s'.buffer = s.buffer) (hn : s'.n = s.n)
    (h : execBitat index s = .next t) : execBitat index s' = .next { s' with rsp := t.rsp } := by
  rcases execBitat_cases h with ⟨hout, rfl⟩ | ⟨hin, bit, hbit, rfl⟩
  · exact execBitat_outside (hn ▸ hout)
  · exact execBitat_of_bit (hn ▸ hin) ((bitAt_congr hb hn _).trans hbit)

/-- Settles O38: `bitAt_eq_byte` names the input byte's bit, `stream_testBit` places it in L, and BITAT answers it. -/
theorem bitatReturnsTheNamedBit : Obligations.BitatReturnsTheNamedBit := by
  intro s k h hk
  obtain ⟨b, hb, hbit⟩ := bitAt_eq_byte h.covers hk
  refine ⟨b, hb, (stream_testBit hk hb).symm, hbit, ?_⟩
  rw [← responseWord_ok_bit]
  exact execBitat_of_bit hk hbit

/-- Settles O39: BITAT's effect is its response by `execBitat_congr`, and so is its answer after commands that are no
NEW, which keep the buffer and N by `execAll_notNew`. -/
theorem bitatIsPure : Obligations.BitatIsPure := by
  intro s t k h
  have hself : execBitat k s = .next { s with rsp := t.rsp } := execBitat_congr rfl rfl h
  refine ⟨Host.Outcome.next.inj (h.symm.trans hself), fun between u hno hall => ?_⟩
  obtain ⟨cursor, rsp, rfl, -⟩ := execAll_notNew hno hall
  exact ⟨_, execBitat_congr (s := s) rfl rfl h, rfl⟩

end Sys2Proof.Machine
end

section
/-! Several blocks side by side: an event reaches the one block it names, so each lives by its own events alone
(spec/60_exceptions.md R97, R103). -/

namespace Sys2Proof.Machine

/-- An event at one block leaves every other block as it was. -/
theorem Instances.getElem?_applyAt_of_ne (m : Instances) {k j : Nat} (hkj : k ≠ j) (e : Event) :
    (m.applyAt k e)[j]? = m[j]? := by
  rw [Instances.getElem?_applyAt, if_neg hkj]

/-- Events at two different blocks commute. -/
theorem Instances.applyAt_comm (m : Instances) {k j : Nat} (hkj : k ≠ j) (e f : Event) :
    (m.applyAt k e).applyAt j f = (m.applyAt j f).applyAt k e := by
  refine List.ext_getElem? fun i => ?_
  simp only [Instances.getElem?_applyAt]
  by_cases hj : j = i
  · have hk : k ≠ i := fun hk => hkj (hk.trans hj.symm)
    rw [if_pos hj, if_neg hk, if_neg hk, if_pos hj]
  · rw [if_neg hj, if_neg hj]

/-- Settles O20: an event reaches the block it names alone, so two at different blocks commute. -/
theorem instancesDoNotInterfere : Obligations.InstancesDoNotInterfere :=
  fun m _ _ e f hkj => ⟨m.getElem?_applyAt_of_ne hkj e, m.applyAt_comm hkj e f⟩

theorem Instances.length_run (history : List (Nat × Event)) (m : Instances) :
    (Instances.run history m).length = m.length := by
  induction history generalizing m with
  | nil => rfl
  | cons p rest ih => rw [Instances.run, ih, Instances.length_applyAt]

/-- Whatever the interleaving, a block's outcome is the fold of its own events. -/
theorem Instances.getElem?_run (history : List (Nat × Event)) (m : Instances) (k : Nat) :
    (Instances.run history m)[k]? =
      m[k]?.map fun o => (ownEvents k history).foldl (fun o e => eventAt e o) o := by
  induction history generalizing m with
  | nil => simp [Instances.run]
  | cons p rest ih =>
    obtain ⟨j, e⟩ := p
    rw [Instances.run, ih, Instances.getElem?_applyAt, ownEvents_cons]
    by_cases hj : j = k
    · rw [if_pos hj, if_pos hj, Option.map_map]
      rfl
    · rw [if_neg hj, if_neg hj]

/-- No event clears a fault (R97). -/
theorem foldl_eventAt_fault (events : List Event) (r : Fault) :
    events.foldl (fun o e => eventAt e o) (.fault r) = .fault r := by
  induction events with
  | nil => rfl
  | cons e rest ih => rw [List.foldl_cons, eventAt_fault, ih]

/-- Settles O21: by `Instances.getElem?_run`, the fold of a block's own events being its own history from a state, and
the fault itself from a fault. -/
theorem eachInstanceLivesItsOwnHistory : Obligations.EachInstanceLivesItsOwnHistory := by
  refine fun history m => ⟨Instances.length_run history m, fun k s hk => ?_, fun k r hk => ?_⟩
  · rw [Instances.getElem?_run, hk, Option.map_some, foldl_eventAt_next]
  · rw [Instances.getElem?_run, hk, Option.map_some, foldl_eventAt_fault]

end Sys2Proof.Machine
end

section
/-! The two forms of IndexOutOfRange: the fault inside READ, the status at BITAT (spec/60_exceptions.md R97). -/

namespace Sys2Proof.Machine

/-- No code ends at a cursor that names no bit: the loop's last index is the cursor itself (R75). -/
theorem assembleCode_eq_none {s : State} {w : Nat} (h1 : 1 ≤ w) (hout : (s.n : Int) * 8 ≤ s.cursor) :
    assembleCode s w = none := by
  have hlast : s.cursor - w + 1 + ((w - 1 : Nat) : Int) = s.cursor := by omega
  refine assembleFrom_eq_none s w (w - 1) _ 0 (by omega) ?_
  rw [hlast, bitAt_eq_none (.inr hout)]

/-- A READ that passes its checks and has no code is the fault (R97 form 1). -/
theorem execRead_of_no_code {w : Nat} {s : State} (h1 : 1 ≤ w) (hw : w ≤ s.cfg.maxWidth)
    (hx : (w : Int) ≤ s.cursor + 1) (hcode : assembleCode s w = none) :
    execRead w s = .fault .indexOutOfRange := by
  unfold execRead
  rw [if_neg (by omega), if_neg (by omega), if_neg (by omega), Int.toNat_natCast, hcode]

/-- Settles O32: bitAt by its range check, READ by the cursor's missing bit, the run by its first step, BITAT by its
own check. -/
theorem indexOutOfRangeHasTwoForms : Obligations.IndexOutOfRangeHasTwoForms := by
  refine ⟨fun s i => bitAt_eq_none, fun s w h1 hw hx hout => ?_, fun s r k h => runSteps_of_fault h k, fun s k hk => ?_⟩
  · obtain ⟨v, rfl⟩ := Int.eq_ofNat_of_zero_le (Int.le_trans Int.one_nonneg h1)
    exact execRead_of_no_code (by omega) (by omega) (by omega) (assembleCode_eq_none (by omega) hout)
  · rw [← responseWord_indexOutOfRange_zero]
    exact execBitat_outside hk

end Sys2Proof.Machine
end

section
/-! The status each accepted word is answered with, and what an error leaves unchanged (spec/60_exceptions.md R94,
R100). -/

namespace Sys2Proof.Machine

/-- R100's order: the status of the first condition that holds of what a word decodes to. -/
def State.firstStatus (s : State) : Decoded → Status
  | .illegal _ => .illegalCommand
  | .command (.new count) => if s.cfg.maxBytes < count then .capacityExceeded else .ok
  | .command (.read width) =>
    if width < 0 ∨ (s.cfg.maxWidth : Int) < width then .invalidWidth
    else if width = 0 then .ok
    else if s.cursor - width + 1 < 0 then .exhausted
    else .ok
  | .command (.bitat index) => if s.n * 8 ≤ index then .indexOutOfRange else .ok

/-- A NEW within capacity with less than its payload on DIN: the one word that is not answered at once (R65). -/
def State.ShortNew (s : State) (d : Decoded) : Prop :=
  ∃ count, d = .command (.new count) ∧ count ≤ s.cfg.maxBytes ∧ s.din.length < count

/-- From `s` to `t` the block answers with the status, and an error changes nothing else (R94). -/
def AnswersWith (st : Status) (s t : State) : Prop :=
  (∃ v, t.rsp = some (responseWord st v)) ∧ (st ≠ .ok → t = raise st s)

theorem answersWith_raise (st : Status) (s : State) : AnswersWith st s (raise st s) := ⟨⟨0#32, rfl⟩, fun _ => rfl⟩

theorem answersWith_ok {s t : State} {v : BitVec 32} (h : t.rsp = some (responseWord .ok v)) : AnswersWith .ok s t :=
  ⟨⟨v, h⟩, fun hne => absurd rfl hne⟩

theorem execNew_answer {count : Nat} {s t : State} (h : execNew count s = .next t) :
    (s.ShortNew (.command (.new count)) ∧ t.rsp = s.rsp) ∨
      (¬s.ShortNew (.command (.new count)) ∧ AnswersWith (s.firstStatus (.command (.new count))) s t) := by
  rcases execNew_cases h with ⟨hover, rfl⟩ | ⟨hfits, rfl⟩
  · have hst : s.firstStatus (.command (.new count)) = .capacityExceeded := if_pos hover
    refine .inr ⟨?_, hst ▸ answersWith_raise _ s⟩
    rintro ⟨_, ⟨⟩, hfits, -⟩
    omega
  · have hst : s.firstStatus (.command (.new count)) = .ok := if_neg (by omega)
    rcases collectPayload_cases { count := count, taken := [] } s (Nat.zero_le _) with
      ⟨missing, rest, hdin, hlength⟩ | hshort
    · refine .inr ⟨?_, hst ▸ answersWith_ok (by rw [collectPayload_full hdin hlength])⟩
      rintro ⟨_, ⟨⟩, -, hshort⟩
      rw [hdin, List.length_append] at hshort
      simp only [List.length_nil] at hlength
      omega
    · exact .inl ⟨⟨count, rfl, hfits, by simpa using hshort⟩, by rw [collectPayload_short hshort]⟩

theorem execRead_answersWith {width : Int} {s t : State} (h : execRead width s = .next t) :
    AnswersWith (s.firstStatus (.command (.read width))) s t := by
  rw [State.firstStatus]
  rcases execRead_cases h with ⟨hw, rfl⟩ | ⟨rfl, rfl⟩ | ⟨h1, hw, hx, rfl⟩ | ⟨h1, hw, hx, code, -, rfl⟩
  · rw [if_pos hw]
    exact answersWith_raise _ s
  · rw [if_neg (by omega), if_pos rfl]
    exact answersWith_ok rfl
  · rw [if_neg (by omega), if_neg (by omega), if_pos hx]
    exact answersWith_raise _ s
  · rw [if_neg (by omega), if_neg (by omega), if_neg (by omega)]
    exact answersWith_ok rfl

theorem execBitat_answersWith {index : Nat} {s t : State} (h : execBitat index s = .next t) :
    AnswersWith (s.firstStatus (.command (.bitat index))) s t := by
  rw [State.firstStatus]
  rcases execBitat_cases h with ⟨hout, rfl⟩ | ⟨hin, bit, -, rfl⟩
  · rw [if_pos hout]
    exact answersWith_raise _ s
  · rw [if_neg (by omega)]
    exact answersWith_ok rfl

/-- A command that gives a next state answers with R100's status, or is a NEW that waits for its payload. -/
theorem exec_answer {i : Instr} {s t : State} (h : exec i s = .next t) :
    (s.ShortNew (.command i) ∧ t.rsp = s.rsp) ∨
      (¬s.ShortNew (.command i) ∧ AnswersWith (s.firstStatus (.command i)) s t) := by
  cases i with
  | new count => exact execNew_answer h
  | read width => exact .inr ⟨by rintro ⟨_, ⟨⟩, -⟩, execRead_answersWith h⟩
  | bitat index => exact .inr ⟨by rintro ⟨_, ⟨⟩, -⟩, execBitat_answersWith h⟩

theorem acceptCommand_firstStatus (rest : List CmdWord) (s : State) (d : Decoded) :
    (acceptCommand rest s).firstStatus d = s.firstStatus d := by
  rcases d with (count | width | index) | why <;> rfl

theorem acceptCommand_shortNew (rest : List CmdWord) (s : State) (d : Decoded) :
    (acceptCommand rest s).ShortNew d ↔ s.ShortNew d := Iff.rfl

/-- A free block answers the word it accepts with R100's status, or starts a NEW that waits for its payload. -/
theorem step_answer {s t : State} (hfree : s.Free) {w : CmdWord} {rest : List CmdWord} (hcmd : s.cmd = w :: rest)
    (h : step s = .next t) :
    (s.ShortNew (decode w) ∧ t.rsp = none) ∨
      (¬s.ShortNew (decode w) ∧ AnswersWith (s.firstStatus (decode w)) (acceptCommand rest s) t) := by
  cases hd : decode w with
  | command i =>
    rw [step_of_command hfree hcmd hd] at h
    have hanswer := exec_answer h
    rwa [acceptCommand_firstStatus, acceptCommand_shortNew, acceptCommand_rsp, hfree.noResponse] at hanswer
  | illegal why =>
    rw [step_of_illegal hfree hcmd hd] at h
    obtain rfl := Host.Outcome.next.inj h
    exact .inr ⟨by rintro ⟨_, ⟨⟩, -⟩, answersWith_raise _ _⟩

/-- Settles O41: by `step_answer` the word is answered with one status, and one that is not OK is only raised. -/
theorem errorsChangeNothing : Obligations.ErrorsChangeNothing := by
  intro s t w rest r hfree hcmd h hrsp herror
  rcases step_answer hfree hcmd h with ⟨-, hnone⟩ | ⟨-, ⟨v, hv⟩, hraise⟩
  · rw [hnone] at hrsp
    cases hrsp
  · have hst : s.firstStatus (decode w) ≠ .ok := by
      intro hok
      rw [← Option.some.inj (hv.symm.trans hrsp), statusField_responseWord, hok] at herror
      exact herror rfl
    obtain rfl := hraise hst
    obtain rfl : responseWord (s.firstStatus (decode w)) 0#32 = r := Option.some.inj hrsp
    exact ⟨rfl, valueField_responseWord _ _⟩

/-- The status of a word by its fields (R51, R61): the decoder's checks, then R100's. -/
theorem firstStatus_decode_code (s : State) (w : CmdWord) :
    (s.firstStatus (decode w)).code =
      if rsvField w ≠ 0#28 then 0x4#4
      else if opField w = opNew then if s.cfg.maxBytes < (argField w).toNat then 0x5#4 else 0x0#4
      else if opField w = opRead then
        if (argField w).toInt < 0 ∨ (s.cfg.maxWidth : Int) < (argField w).toInt then 0x2#4
        else if (argField w).toInt = 0 then 0x0#4
        else if s.cursor - (argField w).toInt + 1 < 0 then 0x1#4
        else 0x0#4
      else if opField w = opBitat then if s.n * 8 ≤ (argField w).toNat then 0x3#4 else 0x0#4
      else 0x4#4 := by
  simp only [decode, apply_ite s.firstStatus]
  simp only [State.firstStatus, apply_ite Status.code]
  rfl

/-- The words that wait for their payload, by their fields. -/
theorem shortNew_decode_iff (s : State) (w : CmdWord) :
    s.ShortNew (decode w) ↔ rsvField w = 0#28 ∧ opField w = opNew ∧ (argField w).toNat ≤ s.cfg.maxBytes ∧
      s.din.length < (argField w).toNat := by
  constructor
  · rintro ⟨count, hd, hfits, hshort⟩
    obtain ⟨hrsv, ⟨hop, ⟨⟩⟩ | ⟨-, ⟨⟩⟩ | ⟨-, ⟨⟩⟩⟩ := decode_command_cases hd
    exact ⟨hrsv, hop, hfits, hshort⟩
  · rintro ⟨hrsv, hop, hfits, hshort⟩
    exact ⟨_, decode_of_opNew hrsv hop, hfits, hshort⟩

/-- Settles O42: the invariant gives a next state, `step_answer` its response, and the two lemmas above read the status
and the waiting NEW off the word's fields. -/
theorem firstConditionGivesTheStatus : Obligations.FirstConditionGivesTheStatus := by
  intro s w rest hinv hfree hcmd
  obtain ⟨t, ht⟩ := step_next hinv.reader
  refine ⟨t, ht, Iff.trans ?_ (shortNew_decode_iff s w), fun r hr => Eq.trans ?_ (firstStatus_decode_code s w)⟩
  · rcases step_answer hfree hcmd ht with ⟨hshort, hnone⟩ | ⟨hnot, ⟨v, hv⟩, -⟩
    · exact iff_of_true hnone hshort
    · exact iff_of_false (by simp [hv]) hnot
  · rcases step_answer hfree hcmd ht with ⟨-, hnone⟩ | ⟨-, ⟨v, hv⟩, -⟩
    · rw [hnone] at hr
      cases hr
    · rw [← Option.some.inj (hv.symm.trans hr), statusField_responseWord]

end Sys2Proof.Machine
end

section
/-! What reset leaves: the empty reader, and a block that takes its next command from CMD once reset is released
(spec/70_reset_and_hazards.md R105 to R107). -/

namespace Sys2Proof.Machine

/-- Reset abandons the NEW in progress and the held response, so once it is released the block is free (R105). -/
theorem releaseReset_resetSequence_free (s : State) : (hostAct (.setReset false) (resetSequence s)).Free :=
  ⟨rfl, rfl, rfl⟩

/-- Settles O2: asserting reset and every step under it are the reset sequence, which leaves a free block on release. -/
theorem resetSequenceLeavesTheEmptyReader : Obligations.ResetSequenceLeavesTheEmptyReader := by
  refine ⟨hostAct_assertReset, fun s hasserted => ?_⟩
  exact ⟨resetSequence s, step_of_reset hasserted, rfl, fun w rest i hcmd hdecode =>
    step_of_command (releaseReset_resetSequence_free s) hcmd hdecode⟩

/-- Settles O3: READs and BITATs keep N = 0 and the parameters, so no index names a bit, and no bit remains, as none
remained at reset. -/
theorem untilTheFirstNewTheReaderIsEmpty : Obligations.UntilTheFirstNewTheReaderIsEmpty := by
  intro c before u hno hall
  have hremaining : State.remaining { State.reset with cfg := c } = 0 := rfl
  obtain ⟨hn, hcfg⟩ : u.n = 0 ∧ u.cfg = c := by
    obtain ⟨cursor, rsp, rfl, -⟩ := execAll_notNew hno hall
    exact ⟨rfl, rfl⟩
  refine ⟨readOfWidthZeroReturnsZero u, fun w h1 hw => ?_, fun k => ?_, fun w hw => ?_⟩
  · exact execRead_exhausts_after hno hall h1 hw (by omega)
  · rw [← responseWord_indexOutOfRange_zero]
    exact execBitat_outside (by omega)
  · exact readOfInvalidWidthChangesNothing u w (hcfg.symm ▸ hw)

end Sys2Proof.Machine
end
